-- ==== Sys2Proof/Word.lean ====
section
/-! DEFINITION. Words, bytes and register selectors of the Nexus Virtual Machine (spec 00_scope.md R7, R10, R13). -/

namespace Sys2Proof

/-- A word: 32 bits, the width of a register, of an address and of an instruction (00_scope.md R7, R10). -/
abbrev Word := BitVec 32

/-- A byte: 8 bits, one cell of memory and one cell of the private input tape (00_scope.md R7). -/
abbrev Byte := BitVec 8

/-- A register selector `x0 .. x31` (10_state.md R21): an index, encoded in five bits (00_scope.md R13). -/
abbrev Reg := Fin 32

/-- The selector whose 5-bit binary representation is `b` (00_scope.md R13: `x_k` has representation `k`). -/
def Reg.ofBits (b : BitVec 5) : Reg := b.toFin

/-- The 5-bit binary representation of a selector. -/
def Reg.toBits (r : Reg) : BitVec 5 := BitVec.ofFin r

@[simp] theorem Reg.toBits_ofBits (b : BitVec 5) : Reg.toBits (Reg.ofBits b) = b := rfl

@[simp] theorem Reg.ofBits_toBits (r : Reg) : Reg.ofBits (Reg.toBits r) = r := rfl

end Sys2Proof
end

