-- ==== Sys2Proof/Config.lean ====
section
/-! DEFINITION. What the spec leaves to the implementation or to the run (spec 00_scope.md R8): `MEM_SIZE`,
`LOAD_UNSIGNED_ENCODING`, what the system-call environment `Env` can answer, and `Env` itself as a free value. -/

namespace Sys2Proof

/-- `LOAD_UNSIGNED_ENCODING` (30_encoding.md R88, 90_conflicts.md C2): which `funct3` values select `lbu` and `lhu`. -/
inductive LoadUnsignedEncoding where
  /-- As the source's encoding table prints them: `lbu` 011, `lhu` 100. The spec's default (D8). -/
  | asPrinted
  /-- As RV32I has them: `lbu` 100, `lhu` 101. -/
  | rv32i
  deriving DecidableEq, Repr

/-- Which `Env` answers the system calls for which a state holds no answer (48_system.md R246). -/
inductive EnvRule where
  /-- R246's instantiation (1): `Env` always refuses. The spec's default (D6). -/
  | refuse
  /-- Any `Env` at all: the two functions of R246 are the uninterpreted `freeEnv`. -/
  | free
  deriving DecidableEq, Repr

/-- The parameters of the step relation (00_scope.md R8, R16); the defaults are the spec's (92_eei_decisions.md, summary
of OPEN parameters). -/
structure Params where
  /-- `MEM_SIZE`: the addresses `0 .. memSize - 1` exist (20_memory.md R52). -/
  memSize : Nat := 2 ^ 32
  /-- `LOAD_UNSIGNED_ENCODING`. -/
  loadUnsigned : LoadUnsignedEncoding := .asPrinted
  /-- `Env`. -/
  env : EnvRule := .refuse
  deriving DecidableEq, Repr

/-- The bounds 00_scope.md R8 puts on `MEM_SIZE`: `4 <= MEM_SIZE <= 2^32`, a multiple of 4. -/
abbrev Params.wf (p : Params) : Prop :=
  4 ≤ p.memSize ∧ p.memSize ≤ 2 ^ 32 ∧ p.memSize % 4 = 0

/-- The reason `Env` gives when it refuses a call (48_system.md R246: `Refuse(reason)`). -/
inductive RefuseReason where
  /-- The reason of the spec's default `Env`, which always refuses (95_test_vectors.md 2.9: `refused`). -/
  | refused
  /-- Any other reason; the spec does not list them. -/
  | code (n : Nat)
  deriving DecidableEq, Repr

/-- One answer of the system-call environment to one `ecall` or `ebreak` (48_system.md R246).
`Env` is a parameter about which the spec fixes only what every answer must respect: `x0` stays 0, the pc is not
among the results, the domain of memory does not change. -/
inductive EnvAnswer where
  /-- `Refuse(reason)`. -/
  | refuse (reason : RefuseReason)
  /-- R246's instantiation (3), register-only: `value` goes to the register that `rd` names, memory is unchanged and
  the new tape is the suffix left after the first `consumed` bytes. -/
  | registerOnly (value : Word) (consumed : Nat)
  /-- R246's instantiation (2), havoc: `Ok(R', M', I')` with `R'` and `M'` given by the registers and the bytes that
  change, in the order written, and `I'` the whole new tape. -/
  | havoc (regs : List (Reg × Word)) (mem : List (Nat × Byte)) (input : List Byte)
  deriving DecidableEq, Repr, Inhabited

/-- The two functions of `Env` (48_system.md R246): `Env.ecall` and `Env.ebreak`. -/
inductive SystemCall where
  | ecall
  | ebreak
  deriving DecidableEq, Repr

/-- A free value: `Env.ecall` and `Env.ebreak` (48_system.md R246), uninterpreted, as functions of the pc, the registers
`x1 .. x31`, the memory, the tape and `rd`. R246 lets the result be non-deterministic, hence the first argument: how many
results were drawn before. Nothing in Lean knows a value of it, so a claim about it is a claim about every `Env` (log
entry 3). -/
opaque freeEnv (draw : Nat) (call : SystemCall) (pc : Word) (regs : Vector Word 31) (mem : List (Nat × Byte))
  (input : List Byte) (rd : Reg) : EnvAnswer

end Sys2Proof
end

