-- ==== Sys2Proof/Syntax.lean ====
section
/-! DEFINITION. The 41 instructions of the Nexus Virtual Machine (spec 00_scope.md R2), one constructor per row of
spec/opcode_table.json. Operands stand in the order of the source's "Arguments" column (30_encoding.md R86).
An immediate is the 32-bit VALUE `i` the instruction rules use (30_encoding.md R73 to R78), not its encoded field. -/

namespace Sys2Proof

/-- An instruction (00_scope.md R2). -/
inductive Instr where
  /-- R100 (upper immediate). -/
  | lui (rd : Reg) (i : Word)
  /-- R101 (upper immediate). -/
  | auipc (rd : Reg) (i : Word)
  /-- R110 (register-register). -/
  | add (rd rs1 rs2 : Reg)
  /-- R112 (register-register). -/
  | sub (rd rs1 rs2 : Reg)
  /-- R113 (register-register). -/
  | slt (rd rs1 rs2 : Reg)
  /-- R115 (register-register). -/
  | sltu (rd rs1 rs2 : Reg)
  /-- R130 (register-register). -/
  | sll (rd rs1 rs2 : Reg)
  /-- R132 (register-register). -/
  | srl (rd rs1 rs2 : Reg)
  /-- R134 (register-register). -/
  | sra (rd rs1 rs2 : Reg)
  /-- R150 (register-register). -/
  | xor (rd rs1 rs2 : Reg)
  /-- R152 (register-register). -/
  | and (rd rs1 rs2 : Reg)
  /-- R154 (register-register). -/
  | or (rd rs1 rs2 : Reg)
  /-- R111 (register-immediate). -/
  | addi (rd rs1 : Reg) (i : Word)
  /-- R114 (register-immediate). -/
  | slti (rd rs1 : Reg) (i : Word)
  /-- R116 (register-immediate). -/
  | sltui (rd rs1 : Reg) (i : Word)
  /-- R131 (register-immediate). -/
  | slli (rd rs1 : Reg) (i : Word)
  /-- R133 (register-immediate). -/
  | srli (rd rs1 : Reg) (i : Word)
  /-- R135 (register-immediate). -/
  | srai (rd rs1 : Reg) (i : Word)
  /-- R151 (register-immediate). -/
  | xori (rd rs1 : Reg) (i : Word)
  /-- R153 (register-immediate). -/
  | andi (rd rs1 : Reg) (i : Word)
  /-- R155 (register-immediate). -/
  | ori (rd rs1 : Reg) (i : Word)
  /-- R171 (branches). -/
  | beq (rs1 rs2 : Reg) (i : Word)
  /-- R172 (branches). -/
  | bne (rs1 rs2 : Reg) (i : Word)
  /-- R173 (branches). -/
  | blt (rs1 rs2 : Reg) (i : Word)
  /-- R174 (branches). -/
  | bge (rs1 rs2 : Reg) (i : Word)
  /-- R175 (branches). -/
  | bltu (rs1 rs2 : Reg) (i : Word)
  /-- R176 (branches). -/
  | bgeu (rs1 rs2 : Reg) (i : Word)
  /-- R191 (loads). -/
  | lb (rd rs1 : Reg) (i : Word)
  /-- R192 (loads). -/
  | lh (rd rs1 : Reg) (i : Word)
  /-- R193 (loads). -/
  | lw (rd rs1 : Reg) (i : Word)
  /-- R194 (loads). -/
  | lbu (rd rs1 : Reg) (i : Word)
  /-- R195 (loads). -/
  | lhu (rd rs1 : Reg) (i : Word)
  /-- R211 (stores). -/
  | sb (rs1 rs2 : Reg) (i : Word)
  /-- R212 (stores). -/
  | sh (rs1 rs2 : Reg) (i : Word)
  /-- R213 (stores). -/
  | sw (rs1 rs2 : Reg) (i : Word)
  /-- R230 (jumps). -/
  | jal (rd : Reg) (i : Word)
  /-- R231 (jumps). -/
  | jalr (rd rs1 : Reg) (i : Word)
  /-- R240 (system). -/
  | fence
  /-- R241 (system). -/
  | ecall (rd : Reg)
  /-- R242 (system). -/
  | ebreak (rd : Reg)
  /-- R243 (system). -/
  | unimp
  deriving DecidableEq, Repr

end Sys2Proof
end

