-- ==== Sys2Proof/WellFormed.lean ====
section
/-! DEFINITION. Well-formed instructions: those whose immediate is a value its format can encode
(spec 30_encoding.md R73 to R78, the range each rule states). -/

namespace Sys2Proof

/-- `i` lies in `lo .. hi` as a signed word. -/
abbrev inSignedRange (lo hi : Int) (i : Word) : Bool := decide (lo ≤ i.toInt) && decide (i.toInt ≤ hi)

/-- R73, R74: an I- or S-immediate ranges over `-2048 .. 2047`. -/
abbrev fitsI (i : Word) : Bool := inSignedRange (-2048) 2047 i

/-- R75: a B-immediate is even and ranges over `-4096 .. 4094`. -/
abbrev fitsB (i : Word) : Bool := inSignedRange (-4096) 4094 i && decide (i.toNat % 2 = 0)

/-- R77: a J-immediate is even and ranges over `-1048576 .. 1048574`. -/
abbrev fitsJ (i : Word) : Bool := inSignedRange (-1048576) 1048574 i && decide (i.toNat % 2 = 0)

/-- R76: the low 12 bits of a U-immediate are zero. -/
abbrev fitsU (i : Word) : Bool := decide (i.toNat % 4096 = 0)

/-- R78: a shift amount ranges over `0 .. 31`. -/
abbrev fitsSH (i : Word) : Bool := decide (i.toNat < 32)

/-- The immediate is one that the instruction's format encodes. -/
def Instr.wf : Instr → Bool
  | .lui _ i | .auipc _ i => fitsU i
  | .add _ _ _ | .sub _ _ _ | .slt _ _ _ | .sltu _ _ _ | .sll _ _ _ | .srl _ _ _ | .sra _ _ _ => true
  | .xor _ _ _ | .and _ _ _ | .or _ _ _ => true
  | .addi _ _ i | .slti _ _ i | .sltui _ _ i | .slli _ _ i | .xori _ _ i | .andi _ _ i | .ori _ _ i => fitsI i
  | .srli _ _ i | .srai _ _ i => fitsSH i
  | .beq _ _ i | .bne _ _ i | .blt _ _ i | .bge _ _ i | .bltu _ _ i | .bgeu _ _ i => fitsB i
  | .lb _ _ i | .lh _ _ i | .lw _ _ i | .lbu _ _ i | .lhu _ _ i => fitsI i
  | .sb _ _ i | .sh _ _ i | .sw _ _ i => fitsI i
  | .jal _ i => fitsJ i
  | .jalr _ _ i => fitsI i
  | .fence | .ecall _ | .ebreak _ | .unimp => true

end Sys2Proof
end

