-- ==== Sys2Proof/Decode.lean ====
section
/-! DEFINITION. The decoder and the encoder (spec 30_encoding.md R70 to R88). The decoder is the spec's table of
`match`/`mask` pairs (R80, R88) with the operands each format reads (R71 to R78); it is total on all words and on all
byte lists, and rejects by name. The encoder lays the same fields out (R72). -/

namespace Sys2Proof

/-! ## Fields and immediates of a word -/

/-- `rd`, bits 11:7 (R71). -/
def rdField (w : Word) : Reg := Reg.ofBits (w.extractLsb' 7 5)

/-- `rs1`, bits 19:15 (R71). -/
def rs1Field (w : Word) : Reg := Reg.ofBits (w.extractLsb' 15 5)

/-- `rs2`, bits 24:20 (R71). -/
def rs2Field (w : Word) : Reg := Reg.ofBits (w.extractLsb' 20 5)

/-- R73, the I-immediate: `sext_32(inst[31:20])`. -/
def immI (w : Word) : Word := (w.extractLsb' 20 12).signExtend 32

/-- R74, the S-immediate: `sext_32(inst[31:25] ++ inst[11:7])`. -/
def immS (w : Word) : Word := (w.extractLsb' 25 7 ++ w.extractLsb' 7 5 : BitVec 12).signExtend 32

/-- R75, the B-immediate: `sext_32(inst[31] ++ inst[7] ++ inst[30:25] ++ inst[11:8] ++ 0)`. -/
def immB (w : Word) : Word :=
  (w.extractLsb' 31 1 ++ w.extractLsb' 7 1 ++ w.extractLsb' 25 6 ++ w.extractLsb' 8 4 ++ 0#1 : BitVec 13).signExtend 32

/-- R76, the U-immediate: `inst[31:12] ++ 0^12`. -/
def immU (w : Word) : Word := w.extractLsb' 12 20 ++ 0#12

/-- R77, the J-immediate: `sext_32(inst[31] ++ inst[19:12] ++ inst[20] ++ inst[30:21] ++ 0)`. -/
def immJ (w : Word) : Word :=
  (w.extractLsb' 31 1 ++ w.extractLsb' 12 8 ++ w.extractLsb' 20 1 ++ w.extractLsb' 21 10 ++ 0#1 : BitVec 21).signExtend 32

/-- R78, the shift amount of `srli` and `srai`: `zext_32(inst[24:20])`. -/
def immSH (w : Word) : Word := (w.extractLsb' 20 5).setWidth 32

/-! ## The decoding table (R80, R88) -/

/-- One row of R80: a word `w` is this instruction exactly when `w & mask = pattern`; `operands` reads its fields. -/
structure Row where
  mask     : Word
  pattern  : Word
  operands : Word → Instr

/-- R80: `w & mask_X = match_X`. -/
def Row.accepts (r : Row) (w : Word) : Bool := w &&& r.mask == r.pattern

/-- The `match` value of `lbu` (R88). -/
def lbuPattern : LoadUnsignedEncoding → Word
  | .asPrinted => 0x00003003#32
  | .rv32i => 0x00004003#32

/-- The `match` value of `lhu` (R88). -/
def lhuPattern : LoadUnsignedEncoding → Word
  | .asPrinted => 0x00004003#32
  | .rv32i => 0x00005003#32

/-- `lui`, `auipc` (R100, R101), format U. -/
def upperRows : List Row :=
  [ ⟨0x0000007F#32, 0x00000037#32, fun w => .lui (rdField w) (immU w)⟩,
    ⟨0x0000007F#32, 0x00000017#32, fun w => .auipc (rdField w) (immU w)⟩ ]

/-- `jal` (format J) and `jalr` (format I). -/
def jumpRows : List Row :=
  [ ⟨0x0000007F#32, 0x0000006F#32, fun w => .jal (rdField w) (immJ w)⟩,
    ⟨0x0000707F#32, 0x00000067#32, fun w => .jalr (rdField w) (rs1Field w) (immI w)⟩ ]

/-- The branches, format B. -/
def branchRows : List Row :=
  [ ⟨0x0000707F#32, 0x00000063#32, fun w => .beq (rs1Field w) (rs2Field w) (immB w)⟩,
    ⟨0x0000707F#32, 0x00001063#32, fun w => .bne (rs1Field w) (rs2Field w) (immB w)⟩,
    ⟨0x0000707F#32, 0x00004063#32, fun w => .blt (rs1Field w) (rs2Field w) (immB w)⟩,
    ⟨0x0000707F#32, 0x00005063#32, fun w => .bge (rs1Field w) (rs2Field w) (immB w)⟩,
    ⟨0x0000707F#32, 0x00006063#32, fun w => .bltu (rs1Field w) (rs2Field w) (immB w)⟩,
    ⟨0x0000707F#32, 0x00007063#32, fun w => .bgeu (rs1Field w) (rs2Field w) (immB w)⟩ ]

/-- The loads, format I; `lbu` and `lhu` by `LOAD_UNSIGNED_ENCODING` (R88). -/
def loadRows (enc : LoadUnsignedEncoding) : List Row :=
  [ ⟨0x0000707F#32, 0x00000003#32, fun w => .lb (rdField w) (rs1Field w) (immI w)⟩,
    ⟨0x0000707F#32, 0x00001003#32, fun w => .lh (rdField w) (rs1Field w) (immI w)⟩,
    ⟨0x0000707F#32, 0x00002003#32, fun w => .lw (rdField w) (rs1Field w) (immI w)⟩,
    ⟨0x0000707F#32, lbuPattern enc, fun w => .lbu (rdField w) (rs1Field w) (immI w)⟩,
    ⟨0x0000707F#32, lhuPattern enc, fun w => .lhu (rdField w) (rs1Field w) (immI w)⟩ ]

/-- The stores, format S. -/
def storeRows : List Row :=
  [ ⟨0x0000707F#32, 0x00000023#32, fun w => .sb (rs1Field w) (rs2Field w) (immS w)⟩,
    ⟨0x0000707F#32, 0x00001023#32, fun w => .sh (rs1Field w) (rs2Field w) (immS w)⟩,
    ⟨0x0000707F#32, 0x00002023#32, fun w => .sw (rs1Field w) (rs2Field w) (immS w)⟩ ]

/-- The register-immediate operations: format I, and ISH for `srli` and `srai`. Bits 31:25 of `slli` are not checked (R82). -/
def immediateRows : List Row :=
  [ ⟨0x0000707F#32, 0x00000013#32, fun w => .addi (rdField w) (rs1Field w) (immI w)⟩,
    ⟨0x0000707F#32, 0x00001013#32, fun w => .slli (rdField w) (rs1Field w) (immI w)⟩,
    ⟨0x0000707F#32, 0x00002013#32, fun w => .slti (rdField w) (rs1Field w) (immI w)⟩,
    ⟨0x0000707F#32, 0x00003013#32, fun w => .sltui (rdField w) (rs1Field w) (immI w)⟩,
    ⟨0x0000707F#32, 0x00004013#32, fun w => .xori (rdField w) (rs1Field w) (immI w)⟩,
    ⟨0xFE00707F#32, 0x00005013#32, fun w => .srli (rdField w) (rs1Field w) (immSH w)⟩,
    ⟨0xFE00707F#32, 0x40005013#32, fun w => .srai (rdField w) (rs1Field w) (immSH w)⟩,
    ⟨0x0000707F#32, 0x00006013#32, fun w => .ori (rdField w) (rs1Field w) (immI w)⟩,
    ⟨0x0000707F#32, 0x00007013#32, fun w => .andi (rdField w) (rs1Field w) (immI w)⟩ ]

/-- The register-register operations, format R. -/
def registerRows : List Row :=
  [ ⟨0xFE00707F#32, 0x00000033#32, fun w => .add (rdField w) (rs1Field w) (rs2Field w)⟩,
    ⟨0xFE00707F#32, 0x40000033#32, fun w => .sub (rdField w) (rs1Field w) (rs2Field w)⟩,
    ⟨0xFE00707F#32, 0x00001033#32, fun w => .sll (rdField w) (rs1Field w) (rs2Field w)⟩,
    ⟨0xFE00707F#32, 0x00002033#32, fun w => .slt (rdField w) (rs1Field w) (rs2Field w)⟩,
    ⟨0xFE00707F#32, 0x00003033#32, fun w => .sltu (rdField w) (rs1Field w) (rs2Field w)⟩,
    ⟨0xFE00707F#32, 0x00004033#32, fun w => .xor (rdField w) (rs1Field w) (rs2Field w)⟩,
    ⟨0xFE00707F#32, 0x00005033#32, fun w => .srl (rdField w) (rs1Field w) (rs2Field w)⟩,
    ⟨0xFE00707F#32, 0x40005033#32, fun w => .sra (rdField w) (rs1Field w) (rs2Field w)⟩,
    ⟨0xFE00707F#32, 0x00006033#32, fun w => .or (rdField w) (rs1Field w) (rs2Field w)⟩,
    ⟨0xFE00707F#32, 0x00007033#32, fun w => .and (rdField w) (rs1Field w) (rs2Field w)⟩ ]

/-- `fence` (format F, bits 31:7 ignored), `ecall`, `ebreak`, `unimp` (format SYS, bits 11:7 of `unimp` ignored; R82). -/
def systemRows : List Row :=
  [ ⟨0x0000007F#32, 0x0000000F#32, fun _ => .fence⟩,
    ⟨0xFFFFF07F#32, 0x00000073#32, fun w => .ecall (rdField w)⟩,
    ⟨0xFFFFF07F#32, 0x00100073#32, fun w => .ebreak (rdField w)⟩,
    ⟨0xFFFFF07F#32, 0xC0001073#32, fun _ => .unimp⟩ ]

/-- The 41 rows of R80, with the two loads as `LOAD_UNSIGNED_ENCODING` has them. -/
def decodeTable (enc : LoadUnsignedEncoding) : List Row :=
  upperRows ++ jumpRows ++ branchRows ++ loadRows enc ++ storeRows ++ immediateRows ++ registerRows ++ systemRows

/-! ## Decoding -/

/-- Why bytes are no instruction. -/
inductive DecodeError where
  /-- The word matches no row of R80 (R81). Raised by the decoder. -/
  | undefinedEncoding (word : Word)
  /-- Fewer than the four bytes an instruction has (R70). Raised by the decoder of byte lists; never by a fetch. -/
  | truncated (length : Nat)
  deriving DecidableEq, Repr

/-- `Decode(word)` of 60_exceptions.md R269: total, an instruction or the reason there is none. -/
def decode (enc : LoadUnsignedEncoding) (w : Word) : Except DecodeError Instr :=
  match (decodeTable enc).find? (fun r => r.accepts w) with
  | some r => .ok (r.operands w)
  | none => .error (.undefinedEncoding w)

/-- Four bytes at ascending addresses as one little-endian word (20_memory.md R41, R42). -/
def wordOfBytes (b0 b1 b2 b3 : Byte) : Word := b3 ++ b2 ++ b1 ++ b0

/-- The four bytes of a word at ascending addresses (R41). -/
def bytesOfWord (w : Word) : List Byte :=
  [w.extractLsb' 0 8, w.extractLsb' 8 8, w.extractLsb' 16 8, w.extractLsb' 24 8]

/-- Decodes the instruction at the head of a byte list (R42, R70) and returns the bytes after it. -/
def decodeBytes (enc : LoadUnsignedEncoding) : List Byte → Except DecodeError (Instr × List Byte)
  | b0 :: b1 :: b2 :: b3 :: rest =>
    match decode enc (wordOfBytes b0 b1 b2 b3) with
    | .ok i => .ok (i, rest)
    | .error e => .error e
  | short => .error (.truncated short.length)

/-- The instruction the decoder reads from a row of spec/opcode_table.json whose bits are `w`, under the spec's default
`LOAD_UNSIGNED_ENCODING`; the bits from `nbits` up are zero. -/
def decodeTableWord (nbits w : Nat) : Option Instr :=
  match decodeBytes .asPrinted (bytesOfWord (BitVec.ofNat 32 (w % 2 ^ nbits))) with
  | .ok (i, _) => some i
  | .error _ => none

/-! ## Encoding (R72) -/

/-- Format U. -/
def encodeU (i : Word) (rd : Reg) (op : BitVec 7) : Word := i.extractLsb' 12 20 ++ rd.toBits ++ op

/-- Format J (R77: the field is `i[20] ++ i[10:1] ++ i[11] ++ i[19:12]`). -/
def encodeJ (i : Word) (rd : Reg) (op : BitVec 7) : Word :=
  i.extractLsb' 20 1 ++ i.extractLsb' 1 10 ++ i.extractLsb' 11 1 ++ i.extractLsb' 12 8 ++ rd.toBits ++ op

/-- Format I. -/
def encodeI (i : Word) (rs1 : Reg) (f3 : BitVec 3) (rd : Reg) (op : BitVec 7) : Word :=
  i.extractLsb' 0 12 ++ rs1.toBits ++ f3 ++ rd.toBits ++ op

/-- Format ISH. -/
def encodeISH (f7 : BitVec 7) (i : Word) (rs1 : Reg) (f3 : BitVec 3) (rd : Reg) (op : BitVec 7) : Word :=
  f7 ++ i.extractLsb' 0 5 ++ rs1.toBits ++ f3 ++ rd.toBits ++ op

/-- Format B (R75: the fragments are `i[12] ++ i[10:5]` and `i[4:1] ++ i[11]`). -/
def encodeB (i : Word) (rs2 rs1 : Reg) (f3 : BitVec 3) (op : BitVec 7) : Word :=
  i.extractLsb' 12 1 ++ i.extractLsb' 5 6 ++ rs2.toBits ++ rs1.toBits ++ f3 ++ i.extractLsb' 1 4 ++
    i.extractLsb' 11 1 ++ op

/-- Format S (R74). -/
def encodeS (i : Word) (rs2 rs1 : Reg) (f3 : BitVec 3) (op : BitVec 7) : Word :=
  i.extractLsb' 5 7 ++ rs2.toBits ++ rs1.toBits ++ f3 ++ i.extractLsb' 0 5 ++ op

/-- Format R. -/
def encodeR (f7 : BitVec 7) (rs2 rs1 : Reg) (f3 : BitVec 3) (rd : Reg) (op : BitVec 7) : Word :=
  f7 ++ rs2.toBits ++ rs1.toBits ++ f3 ++ rd.toBits ++ op

/-- Format SYS. -/
def encodeSYS (const : BitVec 20) (rd : Reg) (op : BitVec 7) : Word := const ++ rd.toBits ++ op

/-- `funct3` of `lbu` (R88). -/
def lbuFunct3 : LoadUnsignedEncoding → BitVec 3
  | .asPrinted => 0b011#3
  | .rv32i => 0b100#3

/-- `funct3` of `lhu` (R88). -/
def lhuFunct3 : LoadUnsignedEncoding → BitVec 3
  | .asPrinted => 0b100#3
  | .rv32i => 0b101#3

/-- The word of a well-formed instruction (R71, R72, R79, R88); ignored bits are encoded as zero. -/
def encode (enc : LoadUnsignedEncoding) : Instr → Word
  | .lui rd i => encodeU i rd 0b0110111#7
  | .auipc rd i => encodeU i rd 0b0010111#7
  | .jal rd i => encodeJ i rd 0b1101111#7
  | .jalr rd rs1 i => encodeI i rs1 0b000#3 rd 0b1100111#7
  | .beq rs1 rs2 i => encodeB i rs2 rs1 0b000#3 0b1100011#7
  | .bne rs1 rs2 i => encodeB i rs2 rs1 0b001#3 0b1100011#7
  | .blt rs1 rs2 i => encodeB i rs2 rs1 0b100#3 0b1100011#7
  | .bge rs1 rs2 i => encodeB i rs2 rs1 0b101#3 0b1100011#7
  | .bltu rs1 rs2 i => encodeB i rs2 rs1 0b110#3 0b1100011#7
  | .bgeu rs1 rs2 i => encodeB i rs2 rs1 0b111#3 0b1100011#7
  | .lb rd rs1 i => encodeI i rs1 0b000#3 rd 0b0000011#7
  | .lh rd rs1 i => encodeI i rs1 0b001#3 rd 0b0000011#7
  | .lw rd rs1 i => encodeI i rs1 0b010#3 rd 0b0000011#7
  | .lbu rd rs1 i => encodeI i rs1 (lbuFunct3 enc) rd 0b0000011#7
  | .lhu rd rs1 i => encodeI i rs1 (lhuFunct3 enc) rd 0b0000011#7
  | .sb rs1 rs2 i => encodeS i rs2 rs1 0b000#3 0b0100011#7
  | .sh rs1 rs2 i => encodeS i rs2 rs1 0b001#3 0b0100011#7
  | .sw rs1 rs2 i => encodeS i rs2 rs1 0b010#3 0b0100011#7
  | .addi rd rs1 i => encodeI i rs1 0b000#3 rd 0b0010011#7
  | .slli rd rs1 i => encodeI i rs1 0b001#3 rd 0b0010011#7
  | .slti rd rs1 i => encodeI i rs1 0b010#3 rd 0b0010011#7
  | .sltui rd rs1 i => encodeI i rs1 0b011#3 rd 0b0010011#7
  | .xori rd rs1 i => encodeI i rs1 0b100#3 rd 0b0010011#7
  | .srli rd rs1 i => encodeISH 0b0000000#7 i rs1 0b101#3 rd 0b0010011#7
  | .srai rd rs1 i => encodeISH 0b0100000#7 i rs1 0b101#3 rd 0b0010011#7
  | .ori rd rs1 i => encodeI i rs1 0b110#3 rd 0b0010011#7
  | .andi rd rs1 i => encodeI i rs1 0b111#3 rd 0b0010011#7
  | .add rd rs1 rs2 => encodeR 0b0000000#7 rs2 rs1 0b000#3 rd 0b0110011#7
  | .sub rd rs1 rs2 => encodeR 0b0100000#7 rs2 rs1 0b000#3 rd 0b0110011#7
  | .sll rd rs1 rs2 => encodeR 0b0000000#7 rs2 rs1 0b001#3 rd 0b0110011#7
  | .slt rd rs1 rs2 => encodeR 0b0000000#7 rs2 rs1 0b010#3 rd 0b0110011#7
  | .sltu rd rs1 rs2 => encodeR 0b0000000#7 rs2 rs1 0b011#3 rd 0b0110011#7
  | .xor rd rs1 rs2 => encodeR 0b0000000#7 rs2 rs1 0b100#3 rd 0b0110011#7
  | .srl rd rs1 rs2 => encodeR 0b0000000#7 rs2 rs1 0b101#3 rd 0b0110011#7
  | .sra rd rs1 rs2 => encodeR 0b0100000#7 rs2 rs1 0b101#3 rd 0b0110011#7
  | .or rd rs1 rs2 => encodeR 0b0000000#7 rs2 rs1 0b110#3 rd 0b0110011#7
  | .and rd rs1 rs2 => encodeR 0b0000000#7 rs2 rs1 0b111#3 rd 0b0110011#7
  | .fence => 0#25 ++ 0b0001111#7
  | .ecall rd => encodeSYS 0x00000#20 rd 0b1110011#7
  | .ebreak rd => encodeSYS 0x00100#20 rd 0b1110011#7
  | .unimp => encodeSYS 0xC0001#20 0 0b1110011#7

end Sys2Proof
end

