-- ==== Sys2Proof/Machine/State.lean ====
section
/-! DEFINITION. The state of the machine as plain data, the reasons a step can stop, and the state after reset
(spec 10_state.md, 60_exceptions.md R261, 70_reset_and_hazards.md R290). -/

namespace Sys2Proof.Machine

open Sys2Proof

/-- Memory `M` (10_state.md R30): the bytes that differ from what an unlisted address reads as, by rising address. -/
abbrev Memory := List Host.Cell

/-- What an address that no entry lists reads as (10_state.md R33: `0x00`). -/
def Memory.unlisted : Byte := 0#8

/-- The canonical form: addresses strictly rising, no entry that equals what an unlisted address reads as. -/
abbrev Memory.wf (m : Memory) : Prop :=
  m.Pairwise (fun c d => c.1 < d.1) ∧ ∀ c ∈ m, c.2 ≠ Memory.unlisted

/-- Every listed address exists (20_memory.md R52: `0 .. size - 1`). -/
abbrev Memory.within (m : Memory) (size : Nat) : Prop := ∀ c ∈ m, c.1 < size

/-- The registers `x1 .. x31`, `x_k` at index `k - 1`. `x0` holds nothing (10_state.md R22): the accessors of
Machine/Ops.lean read it as zero and drop writes to it. -/
abbrev RegisterFile := Vector Word 31

/-- The state: the spec's four-tuple `(pc; M; R; I)` (10_state.md R20), then what the spec calls parameters of the step
relation (00_scope.md R16), carried here because the step takes one argument. -/
structure State where
  /-- The program counter (R24). -/
  pc : Word
  /-- `R`, the general registers (R21). -/
  regs : RegisterFile
  /-- `M`, the memory (R30). -/
  mem : Memory
  /-- `I`, what is left of the private input tape (R31). -/
  input : List Byte
  /-- `MEM_SIZE`, `LOAD_UNSIGNED_ENCODING` and the rule of `Env`; no step changes them. -/
  params : Params
  /-- Results of `Env` fixed in advance for the system calls to come, oldest first (48_system.md R246). A free value of
  the model: where it is empty, `params.env` decides. -/
  answers : List EnvAnswer
  /-- How many results have been drawn from `freeEnv`: the model's counter, no state of the spec. -/
  draws : Nat
  deriving DecidableEq, Repr

/-- The faults of 60_exceptions.md R261. Each is terminal and precise (R262): the machine stops and the state is the one
before the step. All are safe: no claim about what follows can be proved. -/
inductive Fault where
  /-- Raised by the fetch of any step, when the pc is not a multiple of 4 (20_memory.md R45). Safe. -/
  | misalignedFetch (pc : Word)
  /-- Raised by a fetch, a load or a store at an address that is not below `MEM_SIZE` (20_memory.md R52). Safe. -/
  | accessOutOfRange (addr : Word)
  /-- Raised by the decode of a word that matches no row of the table (30_encoding.md R81). Safe. -/
  | illegalInstruction (pc : Word) (word : Word)
  /-- Raised by `lh`, `lhu`, `lw` (20_memory.md R44). Safe. -/
  | misalignedLoad (addr : Word)
  /-- Raised by `sh`, `sw` (20_memory.md R44). Safe. -/
  | misalignedStore (addr : Word)
  /-- Raised by `ecall`, `ebreak` when `Env` refuses (48_system.md R241, R242). Safe. -/
  | environmentFault (pc : Word) (reason : RefuseReason)
  deriving DecidableEq, Repr

/-- Why there is no outcome at all. -/
inductive Refusal where
  /-- Raised by `exec` for an instruction that has no meaning yet; none is left. Safe. -/
  | notModelled (mnemonic : String)
  /-- Raised by `launch` when the image is longer than memory (70_reset_and_hazards.md R290). Safe. -/
  | imageDoesNotFit
  /-- Raised by `launch` when `MEM_SIZE` is outside the bounds of 00_scope.md R8. Safe. -/
  | memSizeNotAllowed
  deriving DecidableEq, Repr

/-- The state right after reset (70_reset_and_hazards.md R290) with the spec's defaults: an empty image and tape, default
parameters, `Env` = refuse. A program comes to run through `launch` or `withFetchWord`. -/
def State.reset : State where
  pc := 0#32
  regs := Vector.replicate 31 0#32
  mem := []
  input := []
  params := ({} : Params)
  answers := []
  draws := 0

end Sys2Proof.Machine
end

