-- ==== Sys2Proof/Machine/Ops.lean ====
section
/-! DEFINITION. The named operations over registers, pc, memory and the system-call environment
(spec 00_scope.md R12, 10_state.md, 20_memory.md, 48_system.md R246, 60_exceptions.md R262). -/

namespace Sys2Proof.Machine

open Sys2Proof

/-- What a step or a meaning answers. -/
abbrev Result := Host.Outcome State Fault Refusal

/-! ## Registers and pc -/

/-- `x[r]` (10_state.md R22): `x0` reads zero, `x_k` the register at index `k - 1`. -/
def State.readReg (s : State) (r : Reg) : Word :=
  if h : r.val = 0 then 0#32 else s.regs[r.val - 1]'(by omega)

/-- `x[r] <- v` (10_state.md R22): no effect when `r` is `x0`. -/
def State.writeReg (s : State) (r : Reg) (v : Word) : State :=
  if h : r.val = 0 then s else { s with regs := s.regs.set (r.val - 1) v (by omega) }

/-- `pc <- t` (10_state.md R25). -/
def State.setPc (s : State) (t : Word) : State := { s with pc := t }

/-- `pc <- pc + 4`, modulo `2^32` (10_state.md R25, R26). -/
def State.advance (s : State) : State := s.setPc (s.pc + 4#32)

/-- Replaces memory. -/
def State.setMem (s : State) (m : Memory) : State := { s with mem := m }

/-! ## Faults -/

/-- `raise f` (60_exceptions.md R262): the step ends with the fault; nothing is saved, no handler runs, and there is no
return (R265, R266). -/
def raise (f : Fault) : Result := .fault f

/-! ## Memory, a byte at a time -/

/-- `M[a]`. -/
def readByte : Memory → Nat → Byte
  | [], _ => Memory.unlisted
  | (k, b) :: rest, a => if k = a then b else readByte rest a

/-- `M[a] <- b`, keeping the canonical form. -/
def writeByte : Memory → Nat → Byte → Memory
  | [], a, b => if b = Memory.unlisted then [] else [(a, b)]
  | (k, c) :: rest, a, b =>
    if a < k then (if b = Memory.unlisted then (k, c) :: rest else (a, b) :: (k, c) :: rest)
    else if a = k then (if b = Memory.unlisted then rest else (a, b) :: rest)
    else (k, c) :: writeByte rest a b

/-- Stores a list of bytes at ascending addresses from `a`. -/
def writeBytes (m : Memory) (a : Nat) : List Byte → Memory
  | [] => m
  | b :: rest => writeBytes (writeByte m a b) (a + 1) rest

/-! ## Memory, wider accesses: little endian, by bytes (20_memory.md R41, R46, R47) -/

/-- `M[a+1] ++ M[a]`. -/
def readHalf (m : Memory) (a : Nat) : BitVec 16 := readByte m (a + 1) ++ readByte m a

/-- `M[a+3] ++ M[a+2] ++ M[a+1] ++ M[a]`. -/
def readWord (m : Memory) (a : Nat) : Word :=
  wordOfBytes (readByte m a) (readByte m (a + 1)) (readByte m (a + 2)) (readByte m (a + 3))

/-- `M[a] <- h[7:0]`, `M[a+1] <- h[15:8]`. -/
def writeHalf (m : Memory) (a : Nat) (h : BitVec 16) : Memory :=
  writeBytes m a [h.extractLsb' 0 8, h.extractLsb' 8 8]

/-- `M[a+k] <- w[8k+7:8k]` for `k` in 0..3. -/
def writeWord (m : Memory) (a : Nat) (w : Word) : Memory := writeBytes m a (bytesOfWord w)

/-! ## Checked accesses (20_memory.md R46, R47, R48) -/

/-- The checks of an access of `n` bytes at `addr`, alignment first, then existence (R44, R52, D15); `misaligned` is the
fault this kind of access raises. `none` if both pass. -/
def State.checkAccess (s : State) (misaligned : Word → Fault) (n : Nat) (addr : Word) : Option Fault :=
  if addr.toNat % n ≠ 0 then some (misaligned addr)
  else if s.params.memSize ≤ addr.toNat then some (.accessOutOfRange addr)
  else none

/-- `MemRead(addr, 1)` (R46). -/
def State.loadByte (s : State) (addr : Word) : Except Fault Byte :=
  match s.checkAccess .misalignedLoad 1 addr with
  | some f => .error f
  | none => .ok (readByte s.mem addr.toNat)

/-- `MemRead(addr, 2)` (R46). -/
def State.loadHalf (s : State) (addr : Word) : Except Fault (BitVec 16) :=
  match s.checkAccess .misalignedLoad 2 addr with
  | some f => .error f
  | none => .ok (readHalf s.mem addr.toNat)

/-- `MemRead(addr, 4)` (R46). -/
def State.loadWord (s : State) (addr : Word) : Except Fault Word :=
  match s.checkAccess .misalignedLoad 4 addr with
  | some f => .error f
  | none => .ok (readWord s.mem addr.toNat)

/-- `MemWrite(addr, 1, v)` (R47). -/
def State.storeByte (s : State) (addr : Word) (v : Byte) : Except Fault State :=
  match s.checkAccess .misalignedStore 1 addr with
  | some f => .error f
  | none => .ok (s.setMem (writeByte s.mem addr.toNat v))

/-- `MemWrite(addr, 2, v)` (R47). -/
def State.storeHalf (s : State) (addr : Word) (v : BitVec 16) : Except Fault State :=
  match s.checkAccess .misalignedStore 2 addr with
  | some f => .error f
  | none => .ok (s.setMem (writeHalf s.mem addr.toNat v))

/-- `MemWrite(addr, 4, v)` (R47). -/
def State.storeWord (s : State) (addr : Word) (v : Word) : Except Fault State :=
  match s.checkAccess .misalignedStore 4 addr with
  | some f => .error f
  | none => .ok (s.setMem (writeWord s.mem addr.toNat v))

/-- `Fetch(pc)` (R48): reads memory as it is now (R58). -/
def State.fetch (s : State) : Except Fault Word :=
  match s.checkAccess .misalignedFetch 4 s.pc with
  | some f => .error f
  | none => .ok (readWord s.mem s.pc.toNat)

/-! ## How an instruction ends -/

/-- Writes `rd` and advances: the end of every register-writing instruction that does not set the pc. -/
def State.finish (s : State) (rd : Reg) (v : Word) : Result := .next (s.writeReg rd v).advance

/-- The end of a load (45_loads.md R190): on a fault nothing is written. -/
def State.finishLoad (s : State) (rd : Reg) : Except Fault Word → Result
  | .error f => raise f
  | .ok v => s.finish rd v

/-- The end of a store (46_stores.md R210): on a fault nothing is stored. -/
def finishStore : Except Fault State → Result
  | .error f => raise f
  | .ok t => .next t.advance

/-- The end of a branch (44_branches.md R170): the target is relative to the branch and is not checked (R177). -/
def State.branch (s : State) (taken : Bool) (i : Word) : Result :=
  .next (if taken then s.setPc (s.pc + i) else s.advance)

/-- The end of a jump (47_jumps.md R230, R231): the link is `pc + 4`, the target is not checked. -/
def State.jump (s : State) (rd : Reg) (target : Word) : Result :=
  .next ((s.writeReg rd (s.pc + 4#32)).setPc target)

/-! ## The system-call environment (48_system.md R246) -/

/-- The registers after a list of writes, in order; writes to `x0` are dropped (10_state.md R22). -/
def State.writeRegs (s : State) : List (Reg × Word) → State
  | [] => s
  | (r, v) :: rest => (s.writeReg r v).writeRegs rest

/-- Memory after a list of byte writes, in order. A write outside `0 .. size - 1` is dropped, so that memory keeps its
domain (R246: "`M'` has the same domain as `M`"). -/
def writeCells (size : Nat) (m : Memory) : List (Nat × Byte) → Memory
  | [] => m
  | (a, b) :: rest => writeCells size (if a < size then writeByte m a b else m) rest

/-- The state an answer of `Env` leaves before the pc advances, or the reason it refuses. -/
def State.applyAnswer (s : State) (rd : Reg) : EnvAnswer → Except RefuseReason State
  | .refuse reason => .error reason
  | .registerOnly value consumed => .ok { s.writeReg rd value with input := s.input.drop consumed }
  | .havoc regs mem input =>
    .ok { s.writeRegs regs with mem := writeCells s.params.memSize s.mem mem, input := input }

/-- `Env`'s answer to a call, and the state with that answer taken: the next one fixed in advance; else the default
`Env` refuses, or `freeEnv` is applied to what R246 gives it. -/
def State.takeAnswer (s : State) (call : SystemCall) (rd : Reg) : EnvAnswer × State :=
  match s.answers with
  | a :: later => (a, { s with answers := later })
  | [] =>
    match s.params.env with
    | .refuse => (.refuse .refused, s)
    | .free => (freeEnv s.draws call s.pc s.regs s.mem s.input rd, { s with draws := s.draws + 1 })

/-- A system call (R241, R242): `Env` answers; `Ok` replaces registers, memory and tape and the pc advances by 4;
`Refuse(reason)` raises `EnvironmentFault(pc, reason)`. -/
def State.sysCall (s : State) (call : SystemCall) (rd : Reg) : Result :=
  match (s.takeAnswer call rd).2.applyAnswer rd (s.takeAnswer call rd).1 with
  | .error reason => raise (.environmentFault s.pc reason)
  | .ok t => .next t.advance

end Sys2Proof.Machine
end

