-- ==== Sys2Proof/Machine/Operands.lean ====
section
/-! DEFINITION. Operand forms: effective addresses, shift amounts, extensions and the truncations of stored data
(spec 20_memory.md R49, R51, 42_shifts.md R136, 00_scope.md R11). -/

namespace Sys2Proof.Machine

open Sys2Proof

/-- R51: `x[rs1] + i`, modulo `2^32`; the base register is not changed. -/
def State.effectiveAddress (s : State) (rs1 : Reg) (i : Word) : Word := s.readReg rs1 + i

/-- R136: the low five bits of the second operand, `0 .. 31`. -/
def shiftAmount (b : Word) : Nat := (b.extractLsb' 0 5).toNat

/-- `a << shamt` (00_scope.md R10). -/
def shiftLeft (a b : Word) : Word := a <<< shiftAmount b

/-- `a >>u shamt`: zeros enter at bit 31. -/
def shiftRightLogical (a b : Word) : Word := a >>> shiftAmount b

/-- `a >>s shamt`: copies of bit 31 enter at bit 31. -/
def shiftRightArithmetic (a b : Word) : Word := a.sshiftRight (shiftAmount b)

/-- `sext_32` of a loaded byte (00_scope.md R11). -/
def signExtendByte (b : Byte) : Word := b.signExtend 32

/-- `zext_32` of a loaded byte. -/
def zeroExtendByte (b : Byte) : Word := b.setWidth 32

/-- `sext_32` of a loaded halfword. -/
def signExtendHalf (h : BitVec 16) : Word := h.signExtend 32

/-- `zext_32` of a loaded halfword. -/
def zeroExtendHalf (h : BitVec 16) : Word := h.setWidth 32

/-- `x[rs2][7:0]`, what `sb` stores (R49). -/
def lowByte (v : Word) : Byte := v.extractLsb' 0 8

/-- `x[rs2][15:0]`, what `sh` stores (R49). -/
def lowHalf (v : Word) : BitVec 16 := v.extractLsb' 0 16

end Sys2Proof.Machine
end

