-- ==== Sys2Proof/Machine/Flags.lean ====
section
/-! DEFINITION. The machine has no flags (spec 10_state.md R27): a comparison is decided inside its instruction. Here are
the comparisons and the word a comparison writes (00_scope.md R10, 41_arithmetic_compare.md R117). -/

namespace Sys2Proof.Machine

open Sys2Proof

/-- Signed comparison: `signed(a) < signed(b)`, two's complement (00_scope.md R10). -/
def lessSigned (a b : Word) : Bool := decide (a.toInt < b.toInt)

/-- Unsigned comparison: `a < b` on `0 .. 2^32 - 1`. -/
def lessUnsigned (a b : Word) : Bool := decide (a.toNat < b.toNat)

/-- The word a comparison writes: 1 for true, 0 for false (R117). -/
def truthWord (c : Bool) : Word := if c then 1#32 else 0#32

end Sys2Proof.Machine
end

