-- ==== Sys2Proof/Machine/Arithmetic.lean ====
section
/-! DEFINITION. Addition, subtraction and comparison (spec 41_arithmetic_compare.md). All arithmetic is modulo `2^32` (R117). -/

namespace Sys2Proof.Machine

open Sys2Proof

/-- R110. -/
def execAdd (rd rs1 rs2 : Reg) (s : State) : Result :=
  s.finish rd (s.readReg rs1 + s.readReg rs2)

/-- R111. -/
def execAddi (rd rs1 : Reg) (i : Word) (s : State) : Result :=
  s.finish rd (s.readReg rs1 + i)

/-- R112. -/
def execSub (rd rs1 rs2 : Reg) (s : State) : Result :=
  s.finish rd (s.readReg rs1 - s.readReg rs2)

/-- R113: signed comparison. -/
def execSlt (rd rs1 rs2 : Reg) (s : State) : Result :=
  s.finish rd (truthWord (lessSigned (s.readReg rs1) (s.readReg rs2)))

/-- R114: signed comparison. -/
def execSlti (rd rs1 : Reg) (i : Word) (s : State) : Result :=
  s.finish rd (truthWord (lessSigned (s.readReg rs1) i))

/-- R115: unsigned comparison. -/
def execSltu (rd rs1 rs2 : Reg) (s : State) : Result :=
  s.finish rd (truthWord (lessUnsigned (s.readReg rs1) (s.readReg rs2)))

/-- R116: unsigned comparison with the sign-extended immediate. -/
def execSltui (rd rs1 : Reg) (i : Word) (s : State) : Result :=
  s.finish rd (truthWord (lessUnsigned (s.readReg rs1) i))

end Sys2Proof.Machine
end

