-- ==== Sys2Proof/Machine/Branches.lean ====
section
/-! DEFINITION. Conditional branches (spec 44_branches.md R170). -/

namespace Sys2Proof.Machine

open Sys2Proof

/-- R171. -/
def execBeq (rs1 rs2 : Reg) (i : Word) (s : State) : Result :=
  s.branch (s.readReg rs1 == s.readReg rs2) i

/-- R172. -/
def execBne (rs1 rs2 : Reg) (i : Word) (s : State) : Result :=
  s.branch (s.readReg rs1 != s.readReg rs2) i

/-- R173: signed comparison. -/
def execBlt (rs1 rs2 : Reg) (i : Word) (s : State) : Result :=
  s.branch (lessSigned (s.readReg rs1) (s.readReg rs2)) i

/-- R174: the exact negation of `blt`. -/
def execBge (rs1 rs2 : Reg) (i : Word) (s : State) : Result :=
  s.branch (!lessSigned (s.readReg rs1) (s.readReg rs2)) i

/-- R175: unsigned comparison. -/
def execBltu (rs1 rs2 : Reg) (i : Word) (s : State) : Result :=
  s.branch (lessUnsigned (s.readReg rs1) (s.readReg rs2)) i

/-- R176: the exact negation of `bltu`. -/
def execBgeu (rs1 rs2 : Reg) (i : Word) (s : State) : Result :=
  s.branch (!lessUnsigned (s.readReg rs1) (s.readReg rs2)) i

end Sys2Proof.Machine
end

