-- ==== Sys2Proof/Machine/Jumps.lean ====
section
/-! DEFINITION. Unconditional jumps (spec 47_jumps.md). -/

namespace Sys2Proof.Machine

open Sys2Proof

/-- R230. -/
def execJal (rd : Reg) (i : Word) (s : State) : Result :=
  s.jump rd (s.pc + i)

/-- R231: the target uses the value of `x[rs1]` before the instruction; bit 0 is not cleared (D10). -/
def execJalr (rd rs1 : Reg) (i : Word) (s : State) : Result :=
  s.jump rd (s.readReg rs1 + i)

end Sys2Proof.Machine
end

