-- ==== Sys2Proof/Machine/Loads.lean ====
section
/-! DEFINITION. Loads (spec 45_loads.md R190). The access and its checks are performed for every `rd`, `x0` too. -/

namespace Sys2Proof.Machine

open Sys2Proof

/-- R191. -/
def execLb (rd rs1 : Reg) (i : Word) (s : State) : Result :=
  s.finishLoad rd ((s.loadByte (s.effectiveAddress rs1 i)).map signExtendByte)

/-- R192. -/
def execLh (rd rs1 : Reg) (i : Word) (s : State) : Result :=
  s.finishLoad rd ((s.loadHalf (s.effectiveAddress rs1 i)).map signExtendHalf)

/-- R193. -/
def execLw (rd rs1 : Reg) (i : Word) (s : State) : Result :=
  s.finishLoad rd (s.loadWord (s.effectiveAddress rs1 i))

/-- R194. -/
def execLbu (rd rs1 : Reg) (i : Word) (s : State) : Result :=
  s.finishLoad rd ((s.loadByte (s.effectiveAddress rs1 i)).map zeroExtendByte)

/-- R195. -/
def execLhu (rd rs1 : Reg) (i : Word) (s : State) : Result :=
  s.finishLoad rd ((s.loadHalf (s.effectiveAddress rs1 i)).map zeroExtendHalf)

end Sys2Proof.Machine
end

