-- ==== Sys2Proof/Machine/Logical.lean ====
section
/-! DEFINITION. Bitwise logical instructions (spec 43_logical.md). -/

namespace Sys2Proof.Machine

open Sys2Proof

/-- R150. -/
def execXor (rd rs1 rs2 : Reg) (s : State) : Result :=
  s.finish rd (s.readReg rs1 ^^^ s.readReg rs2)

/-- R151. -/
def execXori (rd rs1 : Reg) (i : Word) (s : State) : Result :=
  s.finish rd (s.readReg rs1 ^^^ i)

/-- R152. -/
def execAnd (rd rs1 rs2 : Reg) (s : State) : Result :=
  s.finish rd (s.readReg rs1 &&& s.readReg rs2)

/-- R153. -/
def execAndi (rd rs1 : Reg) (i : Word) (s : State) : Result :=
  s.finish rd (s.readReg rs1 &&& i)

/-- R154. -/
def execOr (rd rs1 rs2 : Reg) (s : State) : Result :=
  s.finish rd (s.readReg rs1 ||| s.readReg rs2)

/-- R155. -/
def execOri (rd rs1 : Reg) (i : Word) (s : State) : Result :=
  s.finish rd (s.readReg rs1 ||| i)

end Sys2Proof.Machine
end

