-- ==== Sys2Proof/Machine/Shifts.lean ====
section
/-! DEFINITION. Shifts (spec 42_shifts.md). The amount is the low five bits of the second operand (R136). -/

namespace Sys2Proof.Machine

open Sys2Proof

/-- R130. -/
def execSll (rd rs1 rs2 : Reg) (s : State) : Result :=
  s.finish rd (shiftLeft (s.readReg rs1) (s.readReg rs2))

/-- R131: the amount is `i & 0x1F`; the other bits of the immediate are ignored (30_encoding.md R82). -/
def execSlli (rd rs1 : Reg) (i : Word) (s : State) : Result :=
  s.finish rd (shiftLeft (s.readReg rs1) i)

/-- R132. -/
def execSrl (rd rs1 rs2 : Reg) (s : State) : Result :=
  s.finish rd (shiftRightLogical (s.readReg rs1) (s.readReg rs2))

/-- R133. -/
def execSrli (rd rs1 : Reg) (i : Word) (s : State) : Result :=
  s.finish rd (shiftRightLogical (s.readReg rs1) i)

/-- R134. -/
def execSra (rd rs1 rs2 : Reg) (s : State) : Result :=
  s.finish rd (shiftRightArithmetic (s.readReg rs1) (s.readReg rs2))

/-- R135. -/
def execSrai (rd rs1 : Reg) (i : Word) (s : State) : Result :=
  s.finish rd (shiftRightArithmetic (s.readReg rs1) i)

end Sys2Proof.Machine
end

