-- ==== Sys2Proof/Machine/Stores.lean ====
section
/-! DEFINITION. Stores (spec 46_stores.md R210). -/

namespace Sys2Proof.Machine

open Sys2Proof

/-- R211. -/
def execSb (rs1 rs2 : Reg) (i : Word) (s : State) : Result :=
  finishStore (s.storeByte (s.effectiveAddress rs1 i) (lowByte (s.readReg rs2)))

/-- R212. -/
def execSh (rs1 rs2 : Reg) (i : Word) (s : State) : Result :=
  finishStore (s.storeHalf (s.effectiveAddress rs1 i) (lowHalf (s.readReg rs2)))

/-- R213. -/
def execSw (rs1 rs2 : Reg) (i : Word) (s : State) : Result :=
  finishStore (s.storeWord (s.effectiveAddress rs1 i) (s.readReg rs2))

end Sys2Proof.Machine
end

