-- ==== Sys2Proof/Machine/System.lean ====
section
/-! DEFINITION. `fence`, the system calls and `unimp` (spec 48_system.md). -/

namespace Sys2Proof.Machine

open Sys2Proof

/-- R240: no operation. -/
def execFence (s : State) : Result :=
  .next s.advance

/-- R241: system call, `Env.ecall`. -/
def execEcall (rd : Reg) (s : State) : Result :=
  s.sysCall .ecall rd

/-- R242: system call, `Env.ebreak`. -/
def execEbreak (rd : Reg) (s : State) : Result :=
  s.sysCall .ebreak rd

/-- R243: jumps to pc, so the step changes nothing. -/
def execUnimp (s : State) : Result :=
  .next (s.setPc s.pc)

end Sys2Proof.Machine
end

