-- ==== Sys2Proof/Machine/UpperImmediate.lean ====
section
/-! DEFINITION. Upper-immediate instructions (spec 40_upper_immediate.md). -/

namespace Sys2Proof.Machine

open Sys2Proof

/-- R100: "sets R[rd] to i". -/
def execLui (rd : Reg) (i : Word) (s : State) : Result :=
  s.finish rd i

/-- R101: "sets R[rd] to pc+i", with the pc of this instruction. -/
def execAuipc (rd : Reg) (i : Word) (s : State) : Result :=
  s.finish rd (s.pc + i)

end Sys2Proof.Machine
end

