-- ==== Sys2Proof/Machine/Run.lean ====
section
/-! DEFINITION. Before and after a run: loading the image, the halted state, reading the output
(spec 70_reset_and_hazards.md R290, R294, R296). -/

namespace Sys2Proof.Machine

open Sys2Proof

/-- The memory that holds the bytes of an image at ascending addresses from `a` and reads zero elsewhere. -/
def imageMemory (a : Nat) : List Byte → Memory
  | [] => []
  | b :: rest => if b = Memory.unlisted then imageMemory (a + 1) rest else (a, b) :: imageMemory (a + 1) rest

/-- `Reset(Image, Input)` (R290) under the given parameters and environment; refused when `MEM_SIZE` is outside its bounds
or the image does not fit (D12). -/
def launch (params : Params) (answers : List EnvAnswer) (image input : List Byte) : Result :=
  if ¬ params.wf then .refused .memSizeNotAllowed
  else if params.memSize < image.length then .refused .imageDoesNotFit
  else .next { State.reset with mem := imageMemory 0 image, input := input, params := params, answers := answers }

/-- The instruction the next step would run, if its fetch and its decode succeed (60_exceptions.md R269). -/
def State.nextInstr (s : State) : Option Instr :=
  match s.fetch with
  | .error _ => none
  | .ok w => (decode s.params.loadUnsigned w).toOption

/-- R296: the word at the pc can be fetched and is `unimp`. Other self-loops are not halted (D7). -/
def State.halted (s : State) : Bool := s.nextInstr == some .unimp

/-- What the host reads after the run (R294): the bytes at the addresses of `OutputRegion`. DESIGN CHOICE (log entry 22):
the spec does not say what the host reads at an address of `OutputRegion` that does not exist (not below `MEM_SIZE`);
the model answers `none` there, no byte. -/
def State.output (s : State) (region : List Word) : List (Option Byte) :=
  region.map fun a => if a.toNat < s.params.memSize then some (readByte s.mem a.toNat) else none

end Sys2Proof.Machine
end

