-- ==== Sys2Proof/Machine/Step.lean ====
section
/-! DEFINITION. One step of the machine (spec 60_exceptions.md R269), and placing an instruction where it fetches. -/

namespace Sys2Proof.Machine

open Sys2Proof

/-- `Step(s)` (R269): fetch, decode, execute; the checks come in the order of R263. -/
def step (s : State) : Host.Outcome State Fault Refusal :=
  match s.fetch with
  | .error f => raise f
  | .ok w =>
    match decode s.params.loadUnsigned w with
    | .error _ => raise (.illegalInstruction s.pc w)
    | .ok i => exec i s

/-- The state with the word `w` (its bits from `nbits` up zero) stored at the pc, where the next step fetches. -/
def State.withFetchWord (s : State) (nbits w : Nat) : State :=
  s.setMem (writeWord s.mem s.pc.toNat (BitVec.ofNat 32 (w % 2 ^ nbits)))

end Sys2Proof.Machine
end

