-- ==== Sys2Proof/Safety.lean ====
section
/-! DEFINITION. The terms claims are stated in: what a step may change, the invariant of states, and how a run ends. -/

namespace Sys2Proof

/-! ## Kinds of instruction -/

/-- `sb`, `sh`, `sw`. -/
def Instr.isStore : Instr → Bool
  | .sb _ _ _ | .sh _ _ _ | .sw _ _ _ => true
  | _ => false

/-- `lb`, `lh`, `lw`, `lbu`, `lhu`. -/
def Instr.isLoad : Instr → Bool
  | .lb _ _ _ | .lh _ _ _ | .lw _ _ _ | .lbu _ _ _ | .lhu _ _ _ => true
  | _ => false

/-- `ecall` and `ebreak`. -/
def Instr.isSystemCall : Instr → Bool
  | .ecall _ | .ebreak _ => true
  | _ => false

/-- The instructions that set the pc themselves (10_state.md R25): the branches, the jumps and `unimp`. -/
def Instr.setsPc : Instr → Bool
  | .beq _ _ _ | .bne _ _ _ | .blt _ _ _ | .bge _ _ _ | .bltu _ _ _ | .bgeu _ _ _ => true
  | .jal _ _ | .jalr _ _ _ | .unimp => true
  | _ => false

/-- The register an instruction names as its destination (10_state.md R23), if it has one. -/
def Instr.dest : Instr → Option Reg
  | .lui rd _ | .auipc rd _ | .jal rd _ | .ecall rd | .ebreak rd => some rd
  | .add rd _ _ | .sub rd _ _ | .slt rd _ _ | .sltu rd _ _ | .sll rd _ _ | .srl rd _ _ | .sra rd _ _ => some rd
  | .xor rd _ _ | .and rd _ _ | .or rd _ _ => some rd
  | .addi rd _ _ | .slti rd _ _ | .sltui rd _ _ | .slli rd _ _ | .srli rd _ _ | .srai rd _ _ => some rd
  | .xori rd _ _ | .andi rd _ _ | .ori rd _ _ | .jalr rd _ _ => some rd
  | .lb rd _ _ | .lh rd _ _ | .lw rd _ _ | .lbu rd _ _ | .lhu rd _ _ => some rd
  | .beq _ _ _ | .bne _ _ _ | .blt _ _ _ | .bge _ _ _ | .bltu _ _ _ | .bgeu _ _ _ => none
  | .sb _ _ _ | .sh _ _ _ | .sw _ _ _ | .fence | .unimp => none

end Sys2Proof

namespace Sys2Proof.Machine

open Sys2Proof

/-! ## What changed between two states -/

/-- From `s` to `t` register `rd` became `v` (`x0` stays zero, 10_state.md R22), the pc became `next`, and nothing else
changed: no other register, no byte of memory, not the tape, not the parameters, not what is still to come of
the environment. -/
structure WritesRegister (s t : State) (rd : Reg) (v next : Word) : Prop where
  dest : t.readReg rd = if rd = 0 then 0#32 else v
  others : ∀ r, r ≠ rd → t.readReg r = s.readReg r
  pc : t.pc = next
  memory : ∀ a, readByte t.mem a = readByte s.mem a
  input : t.input = s.input
  params : t.params = s.params
  answers : t.answers = s.answers
  draws : t.draws = s.draws

/-- From `s` to `t` the pc became `next` and nothing else changed. -/
structure OnlyMovesPc (s t : State) (next : Word) : Prop where
  regs : ∀ r, t.readReg r = s.readReg r
  pc : t.pc = next
  memory : ∀ a, readByte t.mem a = readByte s.mem a
  input : t.input = s.input
  params : t.params = s.params
  answers : t.answers = s.answers
  draws : t.draws = s.draws

/-- From `s` to `t` the bytes at ascending addresses from `addr` became `bytes`, the pc advanced by 4, and nothing else
changed: no byte outside them, no register, not the tape, not the parameters, not what is still to come of
the environment. -/
structure StoresBytes (s t : State) (addr : Nat) (bytes : List Byte) : Prop where
  stored : ∀ k (h : k < bytes.length), readByte t.mem (addr + k) = bytes[k]
  outside : ∀ a, (a < addr ∨ addr + bytes.length ≤ a) → readByte t.mem a = readByte s.mem a
  regs : ∀ r, t.readReg r = s.readReg r
  pc : t.pc = s.pc + 4#32
  input : t.input = s.input
  params : t.params = s.params
  answers : t.answers = s.answers
  draws : t.draws = s.draws

/-- The register whose 5-bit selector stands at bits `lo + 4 .. lo` of a word. -/
abbrev selectorAt (w : Word) (lo : Nat) : Reg := Reg.ofBits (w.extractLsb' lo 5)

/-- An outcome with another private input tape in its next state. -/
def withTape (tape : List Byte) : Result → Result
  | .next t => .next { t with input := tape }
  | .fault f => .fault f
  | .refused r => .refused r

/-- An outcome with another count of results drawn from `freeEnv` in its next state. -/
def withDraws (n : Nat) : Result → Result
  | .next t => .next { t with draws := n }
  | .fault f => .fault f
  | .refused r => .refused r

/-! ## The invariant -/

/-- What holds of every state of a run: the parameters are within R8's bounds, memory is in canonical form, and every
listed address exists. -/
abbrev State.Inv (s : State) : Prop := s.params.wf ∧ s.mem.wf ∧ s.mem.within s.params.memSize

/-! ## How a run ends (70_reset_and_hazards.md R296) -/

/-- A completed run: it reaches the halted state `t`. -/
def Completes (s t : State) : Prop := ∃ n, Host.Core.run Sys2Proof.core n s = .next t ∧ t.halted = true

/-- A run that ends in the fault `f`. -/
def EndsInFault (s : State) (f : Fault) : Prop := ∃ n, Host.Core.run Sys2Proof.core n s = .fault f

end Sys2Proof.Machine
end

