-- ==== Sys2Proof/Certificates/Slice0/Obligations.lean ====
section
/-! DEFINITION. The statements for the provers. Each docstring names the rules of spec/ it formalises, and the log
entries of notes/assumptions/ for what the spec decides or the model chooses. -/

open Sys2Proof Sys2Proof.Machine

/-- R100. The bit positions are the rule's own; how the fragments of an immediate are assembled is marked by the spec as general knowledge (R73 to R77, G1; log entry 16). -/
def Obligations.LuiWritesItsImmediate : Prop :=
  (∀ (enc : LoadUnsignedEncoding) (w : Word), w &&& 0x0000007F#32 = 0x00000037#32 →
    decode enc w = .ok (.lui (selectorAt w 7) (w.extractLsb' 12 20 ++ 0#12))) ∧
  ∀ (rd : Reg) (i : Word) (s : State), ∃ t, exec (.lui rd i) s = .next t ∧ WritesRegister s t rd i (s.pc + 4#32)

/-- R101. The bit positions are the rule's own; how the fragments of an immediate are assembled is marked by the spec as general knowledge (R73 to R77, G1; log entry 16). -/
def Obligations.AuipcAddsItsImmediateToPc : Prop :=
  (∀ (enc : LoadUnsignedEncoding) (w : Word), w &&& 0x0000007F#32 = 0x00000017#32 →
    decode enc w = .ok (.auipc (selectorAt w 7) (w.extractLsb' 12 20 ++ 0#12))) ∧
  ∀ (rd : Reg) (i : Word) (s : State), ∃ t, exec (.auipc rd i) s = .next t ∧ WritesRegister s t rd (BitVec.ofNat 32 (s.pc.toNat + i.toNat)) (s.pc + 4#32)

/-- R110, R112. -/
def Obligations.AddAndSubAreModular : Prop :=
  (∀ (enc : LoadUnsignedEncoding) (w : Word), w &&& 0xFE00707F#32 = 0x00000033#32 →
    decode enc w = .ok (.add (selectorAt w 7) (selectorAt w 15) (selectorAt w 20))) ∧
  (∀ (enc : LoadUnsignedEncoding) (w : Word), w &&& 0xFE00707F#32 = 0x40000033#32 →
    decode enc w = .ok (.sub (selectorAt w 7) (selectorAt w 15) (selectorAt w 20))) ∧
  ∀ (rd rs1 rs2 : Reg) (s : State),
    (∃ t, exec (.add rd rs1 rs2) s = .next t ∧ WritesRegister s t rd
      (BitVec.ofNat 32 ((s.readReg rs1).toNat + (s.readReg rs2).toNat)) (s.pc + 4#32)) ∧
    (∃ t, exec (.sub rd rs1 rs2) s = .next t ∧ WritesRegister s t rd
      (BitVec.ofNat 32 ((s.readReg rs1).toNat + 2 ^ 32 - (s.readReg rs2).toNat)) (s.pc + 4#32))

/-- R111. The bit positions are the rule's own; how the fragments of an immediate are assembled is marked by the spec as general knowledge (R73 to R77, G1; log entry 16). -/
def Obligations.AddiAddsASignedImmediate : Prop :=
  (∀ (enc : LoadUnsignedEncoding) (w : Word), w &&& 0x0000707F#32 = 0x00000013#32 →
    decode enc w = .ok (.addi (selectorAt w 7) (selectorAt w 15) ((w.extractLsb' 20 12).signExtend 32))) ∧
  ∀ (rd rs1 : Reg) (i : Word) (s : State), ∃ t, exec (.addi rd rs1 i) s = .next t ∧
    WritesRegister s t rd (BitVec.ofNat 32 ((s.readReg rs1).toNat + i.toNat)) (s.pc + 4#32)

/-- R113, R115, whose pseudocode states the values 1 and 0 (R117 marks them, and R10 two's complement, as general knowledge: log entry 17). -/
def Obligations.SetLessThanComparesRegisters : Prop :=
  (∀ (enc : LoadUnsignedEncoding) (w : Word), w &&& 0xFE00707F#32 = 0x00002033#32 →
    decode enc w = .ok (.slt (selectorAt w 7) (selectorAt w 15) (selectorAt w 20))) ∧
  (∀ (enc : LoadUnsignedEncoding) (w : Word), w &&& 0xFE00707F#32 = 0x00003033#32 →
    decode enc w = .ok (.sltu (selectorAt w 7) (selectorAt w 15) (selectorAt w 20))) ∧
  ∀ (rd rs1 rs2 : Reg) (s : State),
    (∃ t, exec (.slt rd rs1 rs2) s = .next t ∧ WritesRegister s t rd
      (if (s.readReg rs1).toInt < (s.readReg rs2).toInt then 1#32 else 0#32) (s.pc + 4#32)) ∧
    (∃ t, exec (.sltu rd rs1 rs2) s = .next t ∧ WritesRegister s t rd
      (if (s.readReg rs1).toNat < (s.readReg rs2).toNat then 1#32 else 0#32) (s.pc + 4#32))

/-- R114, R116. The bit positions are the rule's own; how the fragments of an immediate are assembled is marked by the spec as general knowledge (R73 to R77, G1; log entry 16). -/
def Obligations.SetLessThanComparesImmediate : Prop :=
  (∀ (enc : LoadUnsignedEncoding) (w : Word), w &&& 0x0000707F#32 = 0x00002013#32 →
    decode enc w = .ok (.slti (selectorAt w 7) (selectorAt w 15) ((w.extractLsb' 20 12).signExtend 32))) ∧
  (∀ (enc : LoadUnsignedEncoding) (w : Word), w &&& 0x0000707F#32 = 0x00003013#32 →
    decode enc w = .ok (.sltui (selectorAt w 7) (selectorAt w 15) ((w.extractLsb' 20 12).signExtend 32))) ∧
  ∀ (rd rs1 : Reg) (i : Word) (s : State),
    (∃ t, exec (.slti rd rs1 i) s = .next t ∧ WritesRegister s t rd
      (if (s.readReg rs1).toInt < i.toInt then 1#32 else 0#32) (s.pc + 4#32)) ∧
    (∃ t, exec (.sltui rd rs1 i) s = .next t ∧ WritesRegister s t rd
      (if (s.readReg rs1).toNat < i.toNat then 1#32 else 0#32) (s.pc + 4#32))

/-- R130, R132, R134. -/
def Obligations.RegisterShiftsMoveBits : Prop :=
  (∀ (enc : LoadUnsignedEncoding) (w : Word), w &&& 0xFE00707F#32 = 0x00001033#32 →
    decode enc w = .ok (.sll (selectorAt w 7) (selectorAt w 15) (selectorAt w 20))) ∧
  (∀ (enc : LoadUnsignedEncoding) (w : Word), w &&& 0xFE00707F#32 = 0x00005033#32 →
    decode enc w = .ok (.srl (selectorAt w 7) (selectorAt w 15) (selectorAt w 20))) ∧
  (∀ (enc : LoadUnsignedEncoding) (w : Word), w &&& 0xFE00707F#32 = 0x40005033#32 →
    decode enc w = .ok (.sra (selectorAt w 7) (selectorAt w 15) (selectorAt w 20))) ∧
  ∀ (rd rs1 rs2 : Reg) (s : State),
    (∃ t v, exec (.sll rd rs1 rs2) s = .next t ∧ WritesRegister s t rd v (s.pc + 4#32) ∧
      ∀ k, k < 32 → v.getLsbD k = (decide (((s.readReg rs2).toNat % 32) ≤ k) && (s.readReg rs1).getLsbD (k - ((s.readReg rs2).toNat % 32)))) ∧
    (∃ t v, exec (.srl rd rs1 rs2) s = .next t ∧ WritesRegister s t rd v (s.pc + 4#32) ∧
      ∀ k, k < 32 → v.getLsbD k = (s.readReg rs1).getLsbD (k + ((s.readReg rs2).toNat % 32))) ∧
    (∃ t v, exec (.sra rd rs1 rs2) s = .next t ∧ WritesRegister s t rd v (s.pc + 4#32) ∧
      ∀ k, k < 32 → v.getLsbD k = (s.readReg rs1).getLsbD (min (k + ((s.readReg rs2).toNat % 32)) 31))

/-- R131, R133, R135. That bits 31:25 of slli are accepted is also decision D9 (log entry 10). -/
def Obligations.ImmediateShiftsMoveBits : Prop :=
  (∀ (enc : LoadUnsignedEncoding) (w : Word), w &&& 0x0000707F#32 = 0x00001013#32 →
    decode enc w = .ok (.slli (selectorAt w 7) (selectorAt w 15) ((w.extractLsb' 20 12).signExtend 32))) ∧
  (∀ (enc : LoadUnsignedEncoding) (w : Word), w &&& 0xFE00707F#32 = 0x00005013#32 →
    decode enc w = .ok (.srli (selectorAt w 7) (selectorAt w 15) ((w.extractLsb' 20 5).setWidth 32))) ∧
  (∀ (enc : LoadUnsignedEncoding) (w : Word), w &&& 0xFE00707F#32 = 0x40005013#32 →
    decode enc w = .ok (.srai (selectorAt w 7) (selectorAt w 15) ((w.extractLsb' 20 5).setWidth 32))) ∧
  (∀ w : Word, ((w.extractLsb' 20 12).signExtend 32).toNat % 32 = (w.extractLsb' 20 5).toNat ∧
    ((w.extractLsb' 20 5).setWidth 32).toNat % 32 = (w.extractLsb' 20 5).toNat) ∧
  ∀ (rd rs1 : Reg) (i : Word) (s : State),
    (∃ t v, exec (.slli rd rs1 i) s = .next t ∧ WritesRegister s t rd v (s.pc + 4#32) ∧
      ∀ k, k < 32 → v.getLsbD k = (decide ((i.toNat % 32) ≤ k) && (s.readReg rs1).getLsbD (k - (i.toNat % 32)))) ∧
    (∃ t v, exec (.srli rd rs1 i) s = .next t ∧ WritesRegister s t rd v (s.pc + 4#32) ∧
      ∀ k, k < 32 → v.getLsbD k = (s.readReg rs1).getLsbD (k + (i.toNat % 32))) ∧
    (∃ t v, exec (.srai rd rs1 i) s = .next t ∧ WritesRegister s t rd v (s.pc + 4#32) ∧
      ∀ k, k < 32 → v.getLsbD k = (s.readReg rs1).getLsbD (min (k + (i.toNat % 32)) 31))

/-- R150, R152, R154. -/
def Obligations.RegisterLogicIsBitwise : Prop :=
  (∀ (enc : LoadUnsignedEncoding) (w : Word), w &&& 0xFE00707F#32 = 0x00004033#32 →
    decode enc w = .ok (.xor (selectorAt w 7) (selectorAt w 15) (selectorAt w 20))) ∧
  (∀ (enc : LoadUnsignedEncoding) (w : Word), w &&& 0xFE00707F#32 = 0x00007033#32 →
    decode enc w = .ok (.and (selectorAt w 7) (selectorAt w 15) (selectorAt w 20))) ∧
  (∀ (enc : LoadUnsignedEncoding) (w : Word), w &&& 0xFE00707F#32 = 0x00006033#32 →
    decode enc w = .ok (.or (selectorAt w 7) (selectorAt w 15) (selectorAt w 20))) ∧
  ∀ (rd rs1 rs2 : Reg) (s : State),
    (∃ t v, exec (.xor rd rs1 rs2) s = .next t ∧ WritesRegister s t rd v (s.pc + 4#32) ∧
      ∀ k, v.getLsbD k = ((s.readReg rs1).getLsbD k ^^ (s.readReg rs2).getLsbD k)) ∧
    (∃ t v, exec (.and rd rs1 rs2) s = .next t ∧ WritesRegister s t rd v (s.pc + 4#32) ∧
      ∀ k, v.getLsbD k = ((s.readReg rs1).getLsbD k && (s.readReg rs2).getLsbD k)) ∧
    (∃ t v, exec (.or rd rs1 rs2) s = .next t ∧ WritesRegister s t rd v (s.pc + 4#32) ∧
      ∀ k, v.getLsbD k = ((s.readReg rs1).getLsbD k || (s.readReg rs2).getLsbD k))

/-- R151, R153, R155. The bit positions are the rule's own; how the fragments of an immediate are assembled is marked by the spec as general knowledge (R73 to R77, G1; log entry 16). -/
def Obligations.ImmediateLogicIsBitwise : Prop :=
  (∀ (enc : LoadUnsignedEncoding) (w : Word), w &&& 0x0000707F#32 = 0x00004013#32 →
    decode enc w = .ok (.xori (selectorAt w 7) (selectorAt w 15) ((w.extractLsb' 20 12).signExtend 32))) ∧
  (∀ (enc : LoadUnsignedEncoding) (w : Word), w &&& 0x0000707F#32 = 0x00007013#32 →
    decode enc w = .ok (.andi (selectorAt w 7) (selectorAt w 15) ((w.extractLsb' 20 12).signExtend 32))) ∧
  (∀ (enc : LoadUnsignedEncoding) (w : Word), w &&& 0x0000707F#32 = 0x00006013#32 →
    decode enc w = .ok (.ori (selectorAt w 7) (selectorAt w 15) ((w.extractLsb' 20 12).signExtend 32))) ∧
  ∀ (rd rs1 : Reg) (i : Word) (s : State),
    (∃ t v, exec (.xori rd rs1 i) s = .next t ∧ WritesRegister s t rd v (s.pc + 4#32) ∧
      ∀ k, v.getLsbD k = ((s.readReg rs1).getLsbD k ^^ i.getLsbD k)) ∧
    (∃ t v, exec (.andi rd rs1 i) s = .next t ∧ WritesRegister s t rd v (s.pc + 4#32) ∧
      ∀ k, v.getLsbD k = ((s.readReg rs1).getLsbD k && i.getLsbD k)) ∧
    (∃ t v, exec (.ori rd rs1 i) s = .next t ∧ WritesRegister s t rd v (s.pc + 4#32) ∧
      ∀ k, v.getLsbD k = ((s.readReg rs1).getLsbD k || i.getLsbD k))

/-- R171, R172, with R170's offset. The bit positions are the rule's own; how the fragments of an immediate are assembled is marked by the spec as general knowledge (R73 to R77, G1; log entry 16). -/
def Obligations.EqualityBranchesCompareAllBits : Prop :=
  (∀ (enc : LoadUnsignedEncoding) (w : Word), w &&& 0x0000707F#32 = 0x00000063#32 →
    decode enc w = .ok (.beq (selectorAt w 15) (selectorAt w 20) ((w.extractLsb' 31 1 ++ w.extractLsb' 7 1 ++ w.extractLsb' 25 6 ++ w.extractLsb' 8 4 ++ 0#1 : BitVec 13).signExtend 32))) ∧
  (∀ (enc : LoadUnsignedEncoding) (w : Word), w &&& 0x0000707F#32 = 0x00001063#32 →
    decode enc w = .ok (.bne (selectorAt w 15) (selectorAt w 20) ((w.extractLsb' 31 1 ++ w.extractLsb' 7 1 ++ w.extractLsb' 25 6 ++ w.extractLsb' 8 4 ++ 0#1 : BitVec 13).signExtend 32))) ∧
  ∀ (rs1 rs2 : Reg) (i : Word) (s : State),
    (∃ t, exec (.beq rs1 rs2 i) s = .next t ∧
      OnlyMovesPc s t (if s.readReg rs1 = s.readReg rs2 then s.pc + i else s.pc + 4#32)) ∧
    (∃ t, exec (.bne rs1 rs2 i) s = .next t ∧
      OnlyMovesPc s t (if s.readReg rs1 ≠ s.readReg rs2 then s.pc + i else s.pc + 4#32))

/-- R173, R174, with R170's offset. The bit positions are the rule's own; how the fragments of an immediate are assembled is marked by the spec as general knowledge (R73 to R77, G1; log entry 16). -/
def Obligations.SignedBranchesCompareAsIntegers : Prop :=
  (∀ (enc : LoadUnsignedEncoding) (w : Word), w &&& 0x0000707F#32 = 0x00004063#32 →
    decode enc w = .ok (.blt (selectorAt w 15) (selectorAt w 20) ((w.extractLsb' 31 1 ++ w.extractLsb' 7 1 ++ w.extractLsb' 25 6 ++ w.extractLsb' 8 4 ++ 0#1 : BitVec 13).signExtend 32))) ∧
  (∀ (enc : LoadUnsignedEncoding) (w : Word), w &&& 0x0000707F#32 = 0x00005063#32 →
    decode enc w = .ok (.bge (selectorAt w 15) (selectorAt w 20) ((w.extractLsb' 31 1 ++ w.extractLsb' 7 1 ++ w.extractLsb' 25 6 ++ w.extractLsb' 8 4 ++ 0#1 : BitVec 13).signExtend 32))) ∧
  ∀ (rs1 rs2 : Reg) (i : Word) (s : State),
    (∃ t, exec (.blt rs1 rs2 i) s = .next t ∧
      OnlyMovesPc s t (if (s.readReg rs1).toInt < (s.readReg rs2).toInt then s.pc + i else s.pc + 4#32)) ∧
    (∃ t, exec (.bge rs1 rs2 i) s = .next t ∧
      OnlyMovesPc s t (if (s.readReg rs1).toInt ≥ (s.readReg rs2).toInt then s.pc + i else s.pc + 4#32))

/-- R175, R176, with R170's offset. The bit positions are the rule's own; how the fragments of an immediate are assembled is marked by the spec as general knowledge (R73 to R77, G1; log entry 16). -/
def Obligations.UnsignedBranchesCompareAsNaturals : Prop :=
  (∀ (enc : LoadUnsignedEncoding) (w : Word), w &&& 0x0000707F#32 = 0x00006063#32 →
    decode enc w = .ok (.bltu (selectorAt w 15) (selectorAt w 20) ((w.extractLsb' 31 1 ++ w.extractLsb' 7 1 ++ w.extractLsb' 25 6 ++ w.extractLsb' 8 4 ++ 0#1 : BitVec 13).signExtend 32))) ∧
  (∀ (enc : LoadUnsignedEncoding) (w : Word), w &&& 0x0000707F#32 = 0x00007063#32 →
    decode enc w = .ok (.bgeu (selectorAt w 15) (selectorAt w 20) ((w.extractLsb' 31 1 ++ w.extractLsb' 7 1 ++ w.extractLsb' 25 6 ++ w.extractLsb' 8 4 ++ 0#1 : BitVec 13).signExtend 32))) ∧
  ∀ (rs1 rs2 : Reg) (i : Word) (s : State),
    (∃ t, exec (.bltu rs1 rs2 i) s = .next t ∧
      OnlyMovesPc s t (if (s.readReg rs1).toNat < (s.readReg rs2).toNat then s.pc + i else s.pc + 4#32)) ∧
    (∃ t, exec (.bgeu rs1 rs2 i) s = .next t ∧
      OnlyMovesPc s t (if (s.readReg rs1).toNat ≥ (s.readReg rs2).toNat then s.pc + i else s.pc + 4#32))

/-- R191, R194, with R190's address; the fault rests on decision D5 (log entry 7). The bit positions are the rule's own; how the fragments of an immediate are assembled is marked by the spec as general knowledge (R73 to R77, G1; log entry 16). -/
def Obligations.ByteLoadsExtendTheByte : Prop :=
  (∀ (enc : LoadUnsignedEncoding) (w : Word), w &&& 0x0000707F#32 = 0x00000003#32 →
    decode enc w = .ok (.lb (selectorAt w 7) (selectorAt w 15) ((w.extractLsb' 20 12).signExtend 32))) ∧
  (∀ w : Word, w &&& 0x0000707F#32 = 0x00003003#32 →
    decode .asPrinted w = .ok (.lbu (selectorAt w 7) (selectorAt w 15) ((w.extractLsb' 20 12).signExtend 32))) ∧
  (∀ w : Word, w &&& 0x0000707F#32 = 0x00004003#32 →
    decode .rv32i w = .ok (.lbu (selectorAt w 7) (selectorAt w 15) ((w.extractLsb' 20 12).signExtend 32))) ∧
  ∀ (rd rs1 : Reg) (i : Word) (s : State),
    ((s.readReg rs1 + i).toNat < s.params.memSize →
    (∃ t, exec (.lb rd rs1 i) s = .next t ∧ WritesRegister s t rd
      ((readByte s.mem (s.readReg rs1 + i).toNat).signExtend 32) (s.pc + 4#32)) ∧
    (∃ t, exec (.lbu rd rs1 i) s = .next t ∧ WritesRegister s t rd
      ((readByte s.mem (s.readReg rs1 + i).toNat).setWidth 32) (s.pc + 4#32))) ∧
    (s.params.memSize ≤ (s.readReg rs1 + i).toNat →
      exec (.lb rd rs1 i) s = .fault (.accessOutOfRange (s.readReg rs1 + i)) ∧
      exec (.lbu rd rs1 i) s = .fault (.accessOutOfRange (s.readReg rs1 + i)))

/-- R192, R195, with R190's address; the faults rest on decisions D2 and D5 (log entry 7). The bit positions are the rule's own; how the fragments of an immediate are assembled is marked by the spec as general knowledge (R73 to R77, G1; log entry 16). -/
def Obligations.HalfwordLoadsExtendTheHalfword : Prop :=
  (∀ (enc : LoadUnsignedEncoding) (w : Word), w &&& 0x0000707F#32 = 0x00001003#32 →
    decode enc w = .ok (.lh (selectorAt w 7) (selectorAt w 15) ((w.extractLsb' 20 12).signExtend 32))) ∧
  (∀ w : Word, w &&& 0x0000707F#32 = 0x00004003#32 →
    decode .asPrinted w = .ok (.lhu (selectorAt w 7) (selectorAt w 15) ((w.extractLsb' 20 12).signExtend 32))) ∧
  (∀ w : Word, w &&& 0x0000707F#32 = 0x00005003#32 →
    decode .rv32i w = .ok (.lhu (selectorAt w 7) (selectorAt w 15) ((w.extractLsb' 20 12).signExtend 32))) ∧
  ∀ (rd rs1 : Reg) (i : Word) (s : State),
    ((s.readReg rs1 + i).toNat % 2 = 0 → (s.readReg rs1 + i).toNat < s.params.memSize →
    (∃ t, exec (.lh rd rs1 i) s = .next t ∧ WritesRegister s t rd
      ((readByte s.mem ((s.readReg rs1 + i).toNat + 1) ++ readByte s.mem (s.readReg rs1 + i).toNat : BitVec 16).signExtend 32) (s.pc + 4#32)) ∧
    (∃ t, exec (.lhu rd rs1 i) s = .next t ∧ WritesRegister s t rd
      ((readByte s.mem ((s.readReg rs1 + i).toNat + 1) ++ readByte s.mem (s.readReg rs1 + i).toNat : BitVec 16).setWidth 32) (s.pc + 4#32))) ∧
    ((s.readReg rs1 + i).toNat % 2 = 1 →
      exec (.lh rd rs1 i) s = .fault (.misalignedLoad (s.readReg rs1 + i)) ∧
      exec (.lhu rd rs1 i) s = .fault (.misalignedLoad (s.readReg rs1 + i))) ∧
    ((s.readReg rs1 + i).toNat % 2 = 0 → s.params.memSize ≤ (s.readReg rs1 + i).toNat →
      exec (.lh rd rs1 i) s = .fault (.accessOutOfRange (s.readReg rs1 + i)) ∧
      exec (.lhu rd rs1 i) s = .fault (.accessOutOfRange (s.readReg rs1 + i)))

/-- R193, with R190's address; the faults rest on decisions D2 and D5 (log entry 7). The bit positions are the rule's own; how the fragments of an immediate are assembled is marked by the spec as general knowledge (R73 to R77, G1; log entry 16). -/
def Obligations.WordLoadReadsLittleEndian : Prop :=
  (∀ (enc : LoadUnsignedEncoding) (w : Word), w &&& 0x0000707F#32 = 0x00002003#32 →
    decode enc w = .ok (.lw (selectorAt w 7) (selectorAt w 15) ((w.extractLsb' 20 12).signExtend 32))) ∧
  ∀ (rd rs1 : Reg) (i : Word) (s : State),
    ((s.readReg rs1 + i).toNat % 4 = 0 → (s.readReg rs1 + i).toNat < s.params.memSize →
    (∃ t, exec (.lw rd rs1 i) s = .next t ∧ WritesRegister s t rd
      (readByte s.mem ((s.readReg rs1 + i).toNat + 3) ++ readByte s.mem ((s.readReg rs1 + i).toNat + 2) ++
        readByte s.mem ((s.readReg rs1 + i).toNat + 1) ++ readByte s.mem (s.readReg rs1 + i).toNat) (s.pc + 4#32))) ∧
    ((s.readReg rs1 + i).toNat % 4 ≠ 0 → exec (.lw rd rs1 i) s = .fault (.misalignedLoad (s.readReg rs1 + i))) ∧
    ((s.readReg rs1 + i).toNat % 4 = 0 → s.params.memSize ≤ (s.readReg rs1 + i).toNat →
      exec (.lw rd rs1 i) s = .fault (.accessOutOfRange (s.readReg rs1 + i)))

/-- R211, with R210's address; the fault rests on decision D5 (log entry 7). The bit positions are the rule's own; how the fragments of an immediate are assembled is marked by the spec as general knowledge (R73 to R77, G1; log entry 16). -/
def Obligations.ByteStoreWritesOneByte : Prop :=
  (∀ (enc : LoadUnsignedEncoding) (w : Word), w &&& 0x0000707F#32 = 0x00000023#32 →
    decode enc w = .ok (.sb (selectorAt w 15) (selectorAt w 20) ((w.extractLsb' 25 7 ++ w.extractLsb' 7 5 : BitVec 12).signExtend 32))) ∧
  ∀ (rs1 rs2 : Reg) (i : Word) (s : State),
    (s.Inv → (s.readReg rs1 + i).toNat < s.params.memSize →
    ∃ t, exec (.sb rs1 rs2 i) s = .next t ∧ StoresBytes s t (s.readReg rs1 + i).toNat
      [(s.readReg rs2).extractLsb' 0 8]) ∧
    (s.params.memSize ≤ (s.readReg rs1 + i).toNat →
      exec (.sb rs1 rs2 i) s = .fault (.accessOutOfRange (s.readReg rs1 + i)))

/-- R212, with R210's address; the faults rest on decisions D2 and D5 (log entry 7). The bit positions are the rule's own; how the fragments of an immediate are assembled is marked by the spec as general knowledge (R73 to R77, G1; log entry 16). -/
def Obligations.HalfwordStoreWritesTwoBytes : Prop :=
  (∀ (enc : LoadUnsignedEncoding) (w : Word), w &&& 0x0000707F#32 = 0x00001023#32 →
    decode enc w = .ok (.sh (selectorAt w 15) (selectorAt w 20) ((w.extractLsb' 25 7 ++ w.extractLsb' 7 5 : BitVec 12).signExtend 32))) ∧
  ∀ (rs1 rs2 : Reg) (i : Word) (s : State),
    (s.Inv → (s.readReg rs1 + i).toNat % 2 = 0 → (s.readReg rs1 + i).toNat < s.params.memSize →
    ∃ t, exec (.sh rs1 rs2 i) s = .next t ∧ StoresBytes s t (s.readReg rs1 + i).toNat
      [(s.readReg rs2).extractLsb' 0 8, (s.readReg rs2).extractLsb' 8 8]) ∧
    ((s.readReg rs1 + i).toNat % 2 ≠ 0 → exec (.sh rs1 rs2 i) s = .fault (.misalignedStore (s.readReg rs1 + i))) ∧
    ((s.readReg rs1 + i).toNat % 2 = 0 → s.params.memSize ≤ (s.readReg rs1 + i).toNat →
      exec (.sh rs1 rs2 i) s = .fault (.accessOutOfRange (s.readReg rs1 + i)))

/-- R213, with R210's address; the faults rest on decisions D2 and D5 (log entry 7). The bit positions are the rule's own; how the fragments of an immediate are assembled is marked by the spec as general knowledge (R73 to R77, G1; log entry 16). -/
def Obligations.WordStoreWritesFourBytes : Prop :=
  (∀ (enc : LoadUnsignedEncoding) (w : Word), w &&& 0x0000707F#32 = 0x00002023#32 →
    decode enc w = .ok (.sw (selectorAt w 15) (selectorAt w 20) ((w.extractLsb' 25 7 ++ w.extractLsb' 7 5 : BitVec 12).signExtend 32))) ∧
  ∀ (rs1 rs2 : Reg) (i : Word) (s : State),
    (s.Inv → (s.readReg rs1 + i).toNat % 4 = 0 → (s.readReg rs1 + i).toNat < s.params.memSize →
    ∃ t, exec (.sw rs1 rs2 i) s = .next t ∧ StoresBytes s t (s.readReg rs1 + i).toNat
      [(s.readReg rs2).extractLsb' 0 8, (s.readReg rs2).extractLsb' 8 8, (s.readReg rs2).extractLsb' 16 8, (s.readReg rs2).extractLsb' 24 8]) ∧
    ((s.readReg rs1 + i).toNat % 4 ≠ 0 → exec (.sw rs1 rs2 i) s = .fault (.misalignedStore (s.readReg rs1 + i))) ∧
    ((s.readReg rs1 + i).toNat % 4 = 0 → s.params.memSize ≤ (s.readReg rs1 + i).toNat →
      exec (.sw rs1 rs2 i) s = .fault (.accessOutOfRange (s.readReg rs1 + i)))

/-- R230. That the target is not checked is also decision D11 (log entry 13). The bit positions are the rule's own; how the fragments of an immediate are assembled is marked by the spec as general knowledge (R73 to R77, G1; log entry 16). -/
def Obligations.JalLinksAndJumps : Prop :=
  (∀ (enc : LoadUnsignedEncoding) (w : Word), w &&& 0x0000007F#32 = 0x0000006F#32 →
    decode enc w = .ok (.jal (selectorAt w 7) ((w.extractLsb' 31 1 ++ w.extractLsb' 12 8 ++ w.extractLsb' 20 1 ++ w.extractLsb' 21 10 ++ 0#1 : BitVec 21).signExtend 32))) ∧
  ∀ (rd : Reg) (i : Word) (s : State), ∃ t, exec (.jal rd i) s = .next t ∧
    WritesRegister s t rd (s.pc + 4#32) (BitVec.ofNat 32 (s.pc.toNat + i.toNat))

/-- R231. That bit 0 is kept and that the old x[rs1] is used are decisions D10 and D26 (log entries 12, 19). The bit positions are the rule's own; how the fragments of an immediate are assembled is marked by the spec as general knowledge (R73 to R77, G1; log entry 16). -/
def Obligations.JalrJumpsToTheExactSum : Prop :=
  (∀ (enc : LoadUnsignedEncoding) (w : Word), w &&& 0x0000707F#32 = 0x00000067#32 →
    decode enc w = .ok (.jalr (selectorAt w 7) (selectorAt w 15) ((w.extractLsb' 20 12).signExtend 32))) ∧
  ∀ (rd rs1 : Reg) (i : Word) (s : State), ∃ t, exec (.jalr rd rs1 i) s = .next t ∧
    WritesRegister s t rd (s.pc + 4#32) (BitVec.ofNat 32 ((s.readReg rs1).toNat + i.toNat))

/-- R240. That the free bits never name a register is also decision D20 (log entry 11). -/
def Obligations.FenceOnlyAdvances : Prop :=
  (∀ (enc : LoadUnsignedEncoding) (w : Word), w &&& 0x0000007F#32 = 0x0000000F#32 →
    decode enc w = .ok (.fence)) ∧
  ∀ s : State, ∃ t, exec .fence s = .next t ∧ OnlyMovesPc s t (s.pc + 4#32)

/-- R243. -/
def Obligations.UnimpChangesNothing : Prop :=
  (∀ (enc : LoadUnsignedEncoding) (w : Word), w &&& 0xFFFFF07F#32 = 0xC0001073#32 →
    decode enc w = .ok (.unimp)) ∧
  ∀ s : State, exec .unimp s = .next s

/-- R241, R242 under R246's instantiation (3). That the environment is a list of answers in the state is the model's choice (log entries 3, 4). -/
def Obligations.SystemCallTakesARegisterOnlyAnswer : Prop :=
  (∀ (enc : LoadUnsignedEncoding) (w : Word), w &&& 0xFFFFF07F#32 = 0x00000073#32 →
    decode enc w = .ok (.ecall (selectorAt w 7))) ∧
  (∀ (enc : LoadUnsignedEncoding) (w : Word), w &&& 0xFFFFF07F#32 = 0x00100073#32 →
    decode enc w = .ok (.ebreak (selectorAt w 7))) ∧
  ∀ call : Reg → Instr, (call = .ecall ∨ call = .ebreak) → 
    ∀ (rd : Reg) (s : State) (value : Word) (consumed : Nat) (later : List EnvAnswer),
    s.answers = .registerOnly value consumed :: later → ∃ t, exec (call rd) s = .next t ∧
      t.readReg rd = (if rd = 0 then 0#32 else value) ∧ (∀ r, r ≠ rd → t.readReg r = s.readReg r) ∧
      t.pc = s.pc + 4#32 ∧ (∀ a, readByte t.mem a = readByte s.mem a) ∧ t.input = s.input.drop consumed ∧
      t.params = s.params ∧ t.answers = later ∧ t.draws = s.draws

/-- R246's instantiation (2) and its constraints. That the environment is a list of answers in the state, and that writes outside memory are dropped, is the model's choice (log entries 3, 4). -/
def Obligations.SystemCallTakesAHavocAnswer : Prop :=
  ∀ call : Reg → Instr, (call = .ecall ∨ call = .ebreak) → 
    ∀ (rd : Reg) (s : State) (regs : List (Reg × Word)) (mem : List (Nat × Byte)) (input : List Byte)
      (later : List EnvAnswer),
    s.Inv → s.answers = .havoc regs mem input :: later → (regs.map Prod.fst).Nodup → (mem.map Prod.fst).Nodup →
    ∃ t, exec (call rd) s = .next t ∧
      (∀ p ∈ regs, p.1 ≠ 0 → t.readReg p.1 = p.2) ∧ t.readReg 0 = 0#32 ∧
      (∀ r, r ∉ regs.map Prod.fst → t.readReg r = s.readReg r) ∧
      (∀ c ∈ mem, c.1 < s.params.memSize → readByte t.mem c.1 = c.2) ∧
      (∀ a, (a ∉ mem.map Prod.fst ∨ s.params.memSize ≤ a) → readByte t.mem a = readByte s.mem a) ∧
      t.input = input ∧ t.pc = s.pc + 4#32 ∧ t.params = s.params ∧ t.answers = later ∧ t.draws = s.draws

/-- R246's Ok(R', M', I') and its three constraints; the form of the answers is the model's choice (log entries 3, 4). -/
def Obligations.EveryEnvironmentResultIsAnAnswer : Prop :=
  ∀ (s : State) (regs : Reg → Word) (mem : Memory) (input : List Byte), s.Inv → regs 0 = 0#32 → mem.wf →
    mem.within s.params.memSize → ∃ a : EnvAnswer, ∀ (rd : Reg) (later : List EnvAnswer) (call : Reg → Instr),
    (call = .ecall ∨ call = .ebreak) → ∃ t, exec (call rd) { s with answers := a :: later } = .next t ∧
      t.pc = s.pc + 4#32 ∧ (∀ r, t.readReg r = regs r) ∧ t.mem = mem ∧ t.input = input ∧ t.params = s.params ∧
      t.answers = later ∧ t.draws = s.draws

/-- R241, R242; the default environment is decision D6, and that it stands where no answer is left under the rule
`refuse` is the model's choice (log entry 3). -/
def Obligations.RefusedSystemCallFaults : Prop :=
  ∀ call : Reg → Instr, (call = .ecall ∨ call = .ebreak) → ∀ (rd : Reg) (s : State),
    (∀ reason later, s.answers = .refuse reason :: later →
      exec (call rd) s = .fault (.environmentFault s.pc reason)) ∧
    (s.answers = [] → s.params.env = .refuse → exec (call rd) s = .fault (.environmentFault s.pc .refused))

/-- R52, decision D5 (log entry 7). -/
def Obligations.ByteAccessOutsideMemoryFaults : Prop :=
  ∀ (rd rs1 rs2 : Reg) (i : Word) (s : State), s.params.memSize ≤ (s.readReg rs1 + i).toNat →
    exec (.lb rd rs1 i) s = .fault (.accessOutOfRange (s.readReg rs1 + i)) ∧
    exec (.lbu rd rs1 i) s = .fault (.accessOutOfRange (s.readReg rs1 + i)) ∧
    exec (.sb rs1 rs2 i) s = .fault (.accessOutOfRange (s.readReg rs1 + i))

/-- R263, items 1 to 3; what a failed check does is decisions D1, D3, D5, the order D15, the byte order of the fetch D19 (log entries 7, 9, 14, 15). -/
def Obligations.FetchChecksComeFirst : Prop :=
  ∀ s : State,
    (s.pc.toNat % 4 ≠ 0 → step s = .fault (.misalignedFetch s.pc)) ∧
    (s.pc.toNat % 4 = 0 → s.params.memSize ≤ s.pc.toNat → step s = .fault (.accessOutOfRange s.pc)) ∧
    (s.pc.toNat % 4 = 0 → s.pc.toNat < s.params.memSize → ∀ e,
      decode s.params.loadUnsigned
        (readByte s.mem (s.pc.toNat + 3) ++ readByte s.mem (s.pc.toNat + 2) ++ readByte s.mem (s.pc.toNat + 1) ++
      readByte s.mem s.pc.toNat : Word) = .error e →
      step s = .fault (.illegalInstruction s.pc
        (readByte s.mem (s.pc.toNat + 3) ++ readByte s.mem (s.pc.toNat + 2) ++ readByte s.mem (s.pc.toNat + 1) ++
      readByte s.mem s.pc.toNat : Word)))

/-- R269; the byte order of the fetch is decision D19 (log entry 14). -/
def Obligations.StepRunsTheDecodedInstruction : Prop :=
  ∀ (s : State) (i : Instr), s.pc.toNat % 4 = 0 → s.pc.toNat < s.params.memSize →
    decode s.params.loadUnsigned
      (readByte s.mem (s.pc.toNat + 3) ++ readByte s.mem (s.pc.toNat + 2) ++ readByte s.mem (s.pc.toNat + 1) ++
      readByte s.mem s.pc.toNat : Word) = .ok i →
    step s = exec i s

/-- R261, R263 (a misaligned address is reported before one out of range); the faults themselves are decisions D2, D5, D6,
D15 (log entries 7, 15), and where the answer of the environment comes from is the model's choice (log entry 3). -/
def Obligations.OnlyListedInstructionsFault : Prop :=
  ∀ (i : Instr) (s : State) (f : Fault), exec i s = .fault f ↔
    (∃ rd rs1 k, (i = .lh rd rs1 k ∨ i = .lhu rd rs1 k) ∧ (s.readReg rs1 + k).toNat % 2 ≠ 0 ∧
      f = .misalignedLoad (s.readReg rs1 + k)) ∨
    (∃ rd rs1 k, i = .lw rd rs1 k ∧ (s.readReg rs1 + k).toNat % 4 ≠ 0 ∧ f = .misalignedLoad (s.readReg rs1 + k)) ∨
    (∃ rs1 rs2 k, i = .sh rs1 rs2 k ∧ (s.readReg rs1 + k).toNat % 2 ≠ 0 ∧
      f = .misalignedStore (s.readReg rs1 + k)) ∨
    (∃ rs1 rs2 k, i = .sw rs1 rs2 k ∧ (s.readReg rs1 + k).toNat % 4 ≠ 0 ∧
      f = .misalignedStore (s.readReg rs1 + k)) ∨
    (∃ rd rs1 rs2 k n, ((n = 1 ∧ (i = .lb rd rs1 k ∨ i = .lbu rd rs1 k ∨ i = .sb rs1 rs2 k)) ∨
        (n = 2 ∧ (i = .lh rd rs1 k ∨ i = .lhu rd rs1 k ∨ i = .sh rs1 rs2 k)) ∨
        (n = 4 ∧ (i = .lw rd rs1 k ∨ i = .sw rs1 rs2 k))) ∧
      (s.readReg rs1 + k).toNat % n = 0 ∧ s.params.memSize ≤ (s.readReg rs1 + k).toNat ∧
      f = .accessOutOfRange (s.readReg rs1 + k)) ∨
    (∃ rd call reason, ((i = .ecall rd ∧ call = .ecall) ∨ (i = .ebreak rd ∧ call = .ebreak)) ∧
      ((∃ later, s.answers = .refuse reason :: later) ∨
        (s.answers = [] ∧ s.params.env = .refuse ∧ reason = .refused) ∨
        (s.answers = [] ∧ s.params.env = .free ∧
          freeEnv s.draws call s.pc s.regs s.mem s.input rd = .refuse reason)) ∧
      f = .environmentFault s.pc reason)

/-- R269: "It is total: for every state it returns either Next(s') or Fault(f)". -/
def Obligations.StepIsTotal : Prop :=
  ∀ s : State, (∃ t, step s = .next t) ∨ (∃ f, step s = .fault f)

/-- R23's table. -/
def Obligations.OnlyTheDestinationRegisterChanges : Prop :=
  ∀ (i : Instr) (s t : State), i.isSystemCall = false → exec i s = .next t →
    ∀ r, i.dest ≠ some r → t.readReg r = s.readReg r

/-- R30, R46, R47. -/
def Obligations.OnlyStoresAndSystemCallsChangeMemory : Prop :=
  ∀ (i : Instr) (s t : State), s.Inv → i.isSystemCall = false → exec i s = .next t →
    (i.isStore = false → ∀ a, readByte t.mem a = readByte s.mem a) ∧
    (∀ rs1 rs2 k, i = .sb rs1 rs2 k → ∀ a, a ≠ (s.readReg rs1 + k).toNat → readByte t.mem a = readByte s.mem a) ∧
    (∀ rs1 rs2 k, i = .sh rs1 rs2 k → ∀ a, (a < (s.readReg rs1 + k).toNat ∨ (s.readReg rs1 + k).toNat + 2 ≤ a) →
      readByte t.mem a = readByte s.mem a) ∧
    (∀ rs1 rs2 k, i = .sw rs1 rs2 k → ∀ a, (a < (s.readReg rs1 + k).toNat ∨ (s.readReg rs1 + k).toNat + 4 ≤ a) →
      readByte t.mem a = readByte s.mem a)

/-- R31 (its sentence is marked derived), R16; that the parameters, the answers and the count of draws stand in the state
is the model's choice (log entries 1, 3). -/
def Obligations.OnlySystemCallsTouchTheTape : Prop :=
  ∀ (i : Instr) (s t : State), exec i s = .next t →
    t.params = s.params ∧
    (i.isSystemCall = false → t.input = s.input ∧ t.answers = s.answers ∧ t.draws = s.draws)

/-- R25. -/
def Obligations.PcAdvancesByFour : Prop :=
  ∀ (i : Instr) (s t : State), exec i s = .next t →
    (i.setsPc = false → t.pc = BitVec.ofNat 32 (s.pc.toNat + 4)) ∧
    (∀ rs1 rs2 k, (i = .beq rs1 rs2 k ∨ i = .bne rs1 rs2 k ∨ i = .blt rs1 rs2 k ∨ i = .bge rs1 rs2 k ∨
      i = .bltu rs1 rs2 k ∨ i = .bgeu rs1 rs2 k) → t.pc = s.pc + k ∨ t.pc = s.pc + 4#32)

/-- R22. -/
def Obligations.RegisterZeroIsHardwired : Prop :=
  (∀ s : State, s.readReg 0 = 0#32 ∧ ∀ v, s.writeReg 0 v = s) ∧
  ∀ (i : Instr) (s t : State), i.isSystemCall = false → i.dest = some 0 → exec i s = .next t →
    ∀ r, t.readReg r = s.readReg r

/-- R52 (an aligned access never straddles MEM_SIZE), R246 (M' has the domain of M), R8; the canonical form is the model's (log entry 6). -/
def Obligations.StepKeepsTheInvariant : Prop :=
  ∀ s t : State, s.Inv → step s = .next t → t.Inv

/-- R290 and R8's bounds; the model's own are the canonical form of memory (log entry 6), what State.reset holds (log entry
2, DESIGN CHOICE) and that launch gives no state for a MEM_SIZE outside R8's bounds (log entry 18, DESIGN CHOICE). -/
def Obligations.LaunchMeetsTheInvariant : Prop :=
  State.reset.Inv ∧ ∀ (params : Params) (answers : List EnvAnswer) (image input : List Byte) (s : State),
    launch params answers image input = .next s → s.Inv

/-- R33: its table and the first instruction at address 0, for every image, input and memory size R8 allows. The clause on
the first fetch also rests on R42 and R48: the byte order of the fetch is decision D19 (log entry 14). -/
def Obligations.ResetHoldsTheImage : Prop :=
  ∀ (params : Params) (answers : List EnvAnswer) (image input : List Byte), params.wf →
    image.length ≤ params.memSize → ∃ s, launch params answers image input = .next s ∧
      s.pc = 0#32 ∧ (∀ r, s.readReg r = 0#32) ∧ (∀ a (h : a < image.length), readByte s.mem a = image[a]) ∧
      (∀ a, image.length ≤ a → readByte s.mem a = 0#8) ∧
      (∀ h : 4 ≤ image.length, s.fetch = .ok (image[3] ++ image[2] ++ image[1] ++ image[0])) ∧
      s.input = input

/-- The first clause, the refusal of a MEM_SIZE outside R8's bounds, is the model's choice (log entry 18, DESIGN CHOICE);
the second, the refusal of an image that does not fit, is R290 and decision D12 (log entry 18). -/
def Obligations.LaunchRefusesWhatDoesNotFit : Prop :=
  ∀ (params : Params) (answers : List EnvAnswer) (image input : List Byte),
    (¬ params.wf → launch params answers image input = .refused .memSizeNotAllowed) ∧
    (params.wf → params.memSize < image.length → launch params answers image input = .refused .imageDoesNotFit)

/-- R246: "This is the only path by which a program can observe I". -/
def Obligations.TheTapeIsSecretWithoutSystemCalls : Prop :=
  ∀ (s : State) (tape : List Byte), (∀ i, s.nextInstr = some i → i.isSystemCall = false) →
    step { s with input := tape } = withTape tape (step s)

/-- R296, R243. -/
def Obligations.HaltedStatesRepeatForever : Prop :=
  ∀ s : State, (s.halted = true ↔ s.pc.toNat % 4 = 0 ∧ s.pc.toNat < s.params.memSize ∧
      (readByte s.mem (s.pc.toNat + 3) ++ readByte s.mem (s.pc.toNat + 2) ++ readByte s.mem (s.pc.toNat + 1) ++
      readByte s.mem s.pc.toNat : Word) &&& 0xFFFFF07F#32 = 0xC0001073#32) ∧
    (s.halted = true → ∀ n, Host.Core.run Sys2Proof.core n s = .next s)

/-- R296: a run has exactly one of three outcomes. -/
def Obligations.ARunHasOneOutcome : Prop :=
  ∀ s : State, (∀ t u, Completes s t → Completes s u → t = u) ∧ (∀ t f, Completes s t → ¬ EndsInFault s f) ∧
    ∀ f g, EndsInFault s f → EndsInFault s g → f = g

/-- R177, R230, R231, with R171 to R176's conditions: decisions D1, D10, D11 (log entries 7, 12, 13). -/
def Obligations.MisalignedJumpsFaultAtTheNextFetch : Prop :=
  ∀ (rd rs1 rs2 : Reg) (i : Word) (s : State),
    ((s.readReg rs1 + i).toNat % 4 ≠ 0 → ∃ t, exec (.jalr rd rs1 i) s = .next t ∧
      (rd ≠ 0 → t.readReg rd = s.pc + 4#32) ∧ t.pc = s.readReg rs1 + i ∧
      step t = .fault (.misalignedFetch (s.readReg rs1 + i))) ∧
    ((s.pc + i).toNat % 4 ≠ 0 → ∃ t, exec (.jal rd i) s = .next t ∧
      (rd ≠ 0 → t.readReg rd = s.pc + 4#32) ∧ t.pc = s.pc + i ∧ step t = .fault (.misalignedFetch (s.pc + i))) ∧
    ((s.pc + i).toNat % 4 ≠ 0 → ∀ (branch : Reg → Reg → Word → Instr) (taken : Word → Word → Prop),
      ((branch = .beq ∧ taken = fun a b => a = b) ∨ (branch = .bne ∧ taken = fun a b => a ≠ b) ∨
        (branch = .blt ∧ taken = fun a b => a.toInt < b.toInt) ∨
        (branch = .bge ∧ taken = fun a b => b.toInt ≤ a.toInt) ∨
        (branch = .bltu ∧ taken = fun a b => a.toNat < b.toNat) ∨
        (branch = .bgeu ∧ taken = fun a b => b.toNat ≤ a.toNat)) →
      (taken (s.readReg rs1) (s.readReg rs2) → ∃ t, exec (branch rs1 rs2 i) s = .next t ∧ t.pc = s.pc + i ∧
        step t = .fault (.misalignedFetch (s.pc + i))) ∧
      (¬ taken (s.readReg rs1) (s.readReg rs2) → ∃ t, exec (branch rs1 rs2 i) s = .next t ∧ t.pc = s.pc + 4#32))

/-- R58 (its reading is marked derived; log entry 20). -/
def Obligations.AStoreIsSeenByTheNextFetch : Prop :=
  ∀ (rs1 rs2 : Reg) (i : Word) (s : State) (j : Instr), s.Inv → s.readReg rs1 + i = s.pc + 4#32 →
    (s.pc + 4#32).toNat % 4 = 0 → (s.pc + 4#32).toNat < s.params.memSize →
    decode s.params.loadUnsigned (s.readReg rs2) = .ok j →
    ∃ t, exec (.sw rs1 rs2 i) s = .next t ∧ step t = exec j t

/-- R41. -/
def Obligations.WordsAreLittleEndian : Prop :=
  (∀ (m : Memory) (a : Nat) (w : Word), m.wf → readByte (writeWord m a w) a = w.extractLsb' 0 8 ∧
    readByte (writeWord m a w) (a + 1) = w.extractLsb' 8 8 ∧ readByte (writeWord m a w) (a + 2) = w.extractLsb' 16 8 ∧
    readByte (writeWord m a w) (a + 3) = w.extractLsb' 24 8) ∧
  (∀ (m : Memory) (a : Nat) (h : BitVec 16), m.wf → readByte (writeHalf m a h) a = h.extractLsb' 0 8 ∧
    readByte (writeHalf m a h) (a + 1) = h.extractLsb' 8 8) ∧
  ∀ (m : Memory) (a : Nat), (readWord m a).extractLsb' 0 8 = readByte m a ∧
    (readWord m a).extractLsb' 8 8 = readByte m (a + 1) ∧ (readWord m a).extractLsb' 16 8 = readByte m (a + 2) ∧
    (readWord m a).extractLsb' 24 8 = readByte m (a + 3) ∧ (readHalf m a).extractLsb' 0 8 = readByte m a ∧
    (readHalf m a).extractLsb' 8 8 = readByte m (a + 1)

/-- R43 (marked derived). -/
def Obligations.AccessesOfDifferentWidthsSeeTheSameBytes : Prop :=
  ∀ (m : Memory) (a : Nat), m.wf →
    (∀ w : Word, readByte (writeWord m a w) a = w.extractLsb' 0 8 ∧
      readByte (writeWord m a w) (a + 1) = w.extractLsb' 8 8 ∧
      readByte (writeWord m a w) (a + 2) = w.extractLsb' 16 8 ∧
      readByte (writeWord m a w) (a + 3) = w.extractLsb' 24 8 ∧
      readHalf (writeWord m a w) a = w.extractLsb' 0 16 ∧
      readHalf (writeWord m a w) (a + 2) = w.extractLsb' 16 16 ∧ readWord (writeWord m a w) a = w) ∧
    (∀ h0 h1 : BitVec 16, readWord (writeHalf (writeHalf m a h0) (a + 2) h1) a = h1 ++ h0) ∧
    (∀ b0 b1 b2 b3 : Byte, readWord (writeByte (writeByte (writeByte (writeByte m a b0) (a + 1) b1) (a + 2) b2)
      (a + 3) b3) a = b3 ++ b2 ++ b1 ++ b0)

/-- R55 (decision D13). -/
def Obligations.ALoadSeesTheLatestStore : Prop :=
  ∀ (rd rs1 rs2 : Reg) (i : Word) (s : State), s.Inv → (s.readReg rs1 + i).toNat < s.params.memSize → rd ≠ 0 →
    ((s.readReg rs1 + i).toNat % 4 = 0 → ∃ t u, exec (.sw rs1 rs2 i) s = .next t ∧ exec (.lw rd rs1 i) t = .next u ∧
      u.readReg rd = s.readReg rs2) ∧
    ((s.readReg rs1 + i).toNat % 2 = 0 → ∃ t u, exec (.sh rs1 rs2 i) s = .next t ∧ exec (.lhu rd rs1 i) t = .next u ∧
      u.readReg rd = ((s.readReg rs2).extractLsb' 0 16).setWidth 32) ∧
    (∃ t u, exec (.sb rs1 rs2 i) s = .next t ∧ exec (.lbu rd rs1 i) t = .next u ∧
      u.readReg rd = ((s.readReg rs2).extractLsb' 0 8).setWidth 32)

/-- R71 to R80, R88. -/
def Obligations.DecodeOfEncodeIsTheInstruction : Prop :=
  ∀ (enc : LoadUnsignedEncoding) (i : Instr), i.wf = true → decode enc (encode enc i) = .ok i

/-- R80, R82. -/
def Obligations.EncodeOfDecodeIsTheWord : Prop :=
  ∀ (enc : LoadUnsignedEncoding) (w : Word) (i : Instr), decode enc w = .ok i →
    i.wf = true ∧ (i ≠ .fence → i ≠ .unimp → encode enc i = w)

/-- R81, R79, R88. What executing such a word does is decision D3 (log entry 9) and is stated elsewhere. -/
def Obligations.UndefinedEncodingsAreRejected : Prop :=
  ∀ (enc : LoadUnsignedEncoding) (w : Word), decode enc w = .error (.undefinedEncoding w) ↔
    (w.extractLsb' 0 7 ∉ [0b0110111#7, 0b0010111#7, 0b1101111#7, 0b1100111#7, 0b1100011#7, 0b0000011#7, 0b0100011#7,
      0b0010011#7, 0b0110011#7, 0b0001111#7, 0b1110011#7]) ∨
    (w.extractLsb' 0 7 = 0b1100111#7 ∧ w.extractLsb' 12 3 ≠ 0b000#3) ∨
    (w.extractLsb' 0 7 = 0b1100011#7 ∧ w.extractLsb' 12 3 ∈ [0b010#3, 0b011#3]) ∨
    (w.extractLsb' 0 7 = 0b0000011#7 ∧ enc = .asPrinted ∧ w.extractLsb' 12 3 ∈ [0b101#3, 0b110#3, 0b111#3]) ∨
    (w.extractLsb' 0 7 = 0b0000011#7 ∧ enc = .rv32i ∧ w.extractLsb' 12 3 ∈ [0b011#3, 0b110#3, 0b111#3]) ∨
    (w.extractLsb' 0 7 = 0b0100011#7 ∧ w.extractLsb' 12 3 ∉ [0b000#3, 0b001#3, 0b010#3]) ∨
    (w.extractLsb' 0 7 = 0b0010011#7 ∧ w.extractLsb' 12 3 = 0b101#3 ∧ w.extractLsb' 25 7 ∉ [0b0000000#7, 0b0100000#7]) ∨
    (w.extractLsb' 0 7 = 0b0110011#7 ∧ (w.extractLsb' 25 7, w.extractLsb' 12 3) ∉ [(0b0000000#7, 0b000#3), (0b0100000#7, 0b000#3),
      (0b0000000#7, 0b001#3), (0b0000000#7, 0b010#3), (0b0000000#7, 0b011#3), (0b0000000#7, 0b100#3),
      (0b0000000#7, 0b101#3), (0b0100000#7, 0b101#3), (0b0000000#7, 0b110#3), (0b0000000#7, 0b111#3)]) ∨
    (w.extractLsb' 0 7 = 0b1110011#7 ∧ w.extractLsb' 12 20 ∉ [0x00000#20, 0x00100#20, 0xC0001#20])

/-- The worked examples of R230, R171, R213, R135, R195 and 95_test_vectors.md 3.2. -/
def Obligations.PrintedWordsDecodeAsTheSpecSays : Prop :=
  decode .asPrinted 0x001000EF#32 = .ok (.jal 1 2048#32) ∧ decode .asPrinted 0x00208463#32 = .ok (.beq 1 2 8#32) ∧
  decode .rv32i 0xFE20AE23#32 = .ok (.sw 1 2 0xFFFFFFFC#32) ∧ decode .rv32i 0x01DF0FB3#32 = .ok (.add 31 30 29) ∧
  decode .asPrinted 0x41F0D193#32 = .ok (.srai 3 1 31#32) ∧ decode .asPrinted 0x0000C183#32 = .ok (.lhu 3 1 0#32) ∧
  decode .rv32i 0x0000C183#32 = .ok (.lbu 3 1 0#32)

/-- R100's corner case (marked derived). -/
def Obligations.LuiThenAddiBuildsAConstant : Prop :=
  ∀ (c : Word) (rd : Reg) (s : State), rd ≠ 0 → ∃ t u,
    exec (.lui rd ((c + 0x800#32) &&& 0xFFFFF000#32)) s = .next t ∧
    exec (.addi rd rd ((c.extractLsb' 0 12).signExtend 32)) t = .next u ∧ u.readReg rd = c

/-- R117 (marked derived). -/
def Obligations.CarryOutIsRecoveredBySltu : Prop :=
  ∀ (rd rs1 rs2 rq : Reg) (s : State), rd ≠ 0 → rd ≠ rs1 → rq ≠ 0 → ∃ t u,
    exec (.add rd rs1 rs2) s = .next t ∧ exec (.sltu rq rd rs1) t = .next u ∧
    u.readReg rq = (if 2 ^ 32 ≤ (s.readReg rs1).toNat + (s.readReg rs2).toNat then 1#32 else 0#32)

/-- R48, R291; placing a word stands for the load of a program (log entry 2). -/
def Obligations.APlacedWordRunsNext : Prop :=
  ∀ (s : State) (w : Word) (i : Instr), s.Inv → s.pc.toNat % 4 = 0 → s.pc.toNat < s.params.memSize →
    decode s.params.loadUnsigned w = .ok i →
    step (s.withFetchWord 32 w.toNat) = exec i (s.withFetchWord 32 w.toNat) ∧
    (∀ a, (a < s.pc.toNat ∨ s.pc.toNat + 4 ≤ a) → readByte (s.withFetchWord 32 w.toNat).mem a = readByte s.mem a) ∧
    (s.withFetchWord 32 w.toNat).Inv ∧ s.withFetchWord 32 w.toNat = { s with mem := (s.withFetchWord 32 w.toNat).mem }

/-- R246: under the rule `free` the environment is its two functions, applied to (pc, R, M, I, rd), whatever they are, at
every call of a run; what the answer then does is what a fixed answer does. That the functions are uninterpreted, with a
count of draws for R246's non-determinism, is the model's choice of form (log entry 3). -/
def Obligations.FreeEnvironmentAnswersEveryCall : Prop :=
  ∀ (rd : Reg) (s : State), s.answers = [] → s.params.env = .free →
    exec (.ecall rd) s = withDraws (s.draws + 1)
      (exec (.ecall rd) { s with answers := [freeEnv s.draws .ecall s.pc s.regs s.mem s.input rd] }) ∧
    exec (.ebreak rd) s = withDraws (s.draws + 1)
      (exec (.ebreak rd) { s with answers := [freeEnv s.draws .ebreak s.pc s.regs s.mem s.input rd] }) ∧
    (∀ i t, exec i s = .next t → t.answers = [] ∧ t.params.env = .free)

/-- The model's choice (log entries 1, 2, 3): launch hands on the parameters and the answers it is given, and State.reset
is the launch of an empty image with an empty tape under the spec's default parameters. -/
def Obligations.ResetIsTheLaunchOfNothing : Prop :=
  (∀ (params : Params) (answers : List EnvAnswer) (image input : List Byte) (s : State),
    launch params answers image input = .next s → s.params = params ∧ s.answers = answers) ∧
  ∃ answers, launch ({} : Params) answers [] [] = .next State.reset
end

