-- ==== Sys2Proof/Laws/State.lean ====
section
/-! SUPPORT. The small lemmas of the state: each accessor after each update (spec 10_state.md). -/

namespace Sys2Proof.Machine

open Sys2Proof

/-! ## One lemma per field per update -/

@[simp] theorem setPc_pc (s : State) (t : Word) : (s.setPc t).pc = t := rfl
@[simp] theorem setPc_regs (s : State) (t : Word) : (s.setPc t).regs = s.regs := rfl
@[simp] theorem setPc_mem (s : State) (t : Word) : (s.setPc t).mem = s.mem := rfl
@[simp] theorem setPc_input (s : State) (t : Word) : (s.setPc t).input = s.input := rfl
@[simp] theorem setPc_params (s : State) (t : Word) : (s.setPc t).params = s.params := rfl
@[simp] theorem setPc_answers (s : State) (t : Word) : (s.setPc t).answers = s.answers := rfl
@[simp] theorem setPc_draws (s : State) (t : Word) : (s.setPc t).draws = s.draws := rfl
@[simp] theorem setPc_readReg (s : State) (t : Word) (r : Reg) : (s.setPc t).readReg r = s.readReg r := rfl

@[simp] theorem setMem_pc (s : State) (m : Memory) : (s.setMem m).pc = s.pc := rfl
@[simp] theorem setMem_regs (s : State) (m : Memory) : (s.setMem m).regs = s.regs := rfl
@[simp] theorem setMem_mem (s : State) (m : Memory) : (s.setMem m).mem = m := rfl
@[simp] theorem setMem_input (s : State) (m : Memory) : (s.setMem m).input = s.input := rfl
@[simp] theorem setMem_params (s : State) (m : Memory) : (s.setMem m).params = s.params := rfl
@[simp] theorem setMem_answers (s : State) (m : Memory) : (s.setMem m).answers = s.answers := rfl
@[simp] theorem setMem_draws (s : State) (m : Memory) : (s.setMem m).draws = s.draws := rfl
@[simp] theorem setMem_readReg (s : State) (m : Memory) (r : Reg) : (s.setMem m).readReg r = s.readReg r := rfl

@[simp] theorem advance_pc (s : State) : s.advance.pc = s.pc + 4#32 := rfl
@[simp] theorem advance_regs (s : State) : s.advance.regs = s.regs := rfl
@[simp] theorem advance_mem (s : State) : s.advance.mem = s.mem := rfl
@[simp] theorem advance_input (s : State) : s.advance.input = s.input := rfl
@[simp] theorem advance_params (s : State) : s.advance.params = s.params := rfl
@[simp] theorem advance_answers (s : State) : s.advance.answers = s.answers := rfl
@[simp] theorem advance_draws (s : State) : s.advance.draws = s.draws := rfl
@[simp] theorem advance_readReg (s : State) (r : Reg) : s.advance.readReg r = s.readReg r := rfl

@[simp] theorem writeReg_pc (s : State) (r : Reg) (v : Word) : (s.writeReg r v).pc = s.pc := by
  unfold State.writeReg; split <;> rfl
@[simp] theorem writeReg_mem (s : State) (r : Reg) (v : Word) : (s.writeReg r v).mem = s.mem := by
  unfold State.writeReg; split <;> rfl
@[simp] theorem writeReg_input (s : State) (r : Reg) (v : Word) : (s.writeReg r v).input = s.input := by
  unfold State.writeReg; split <;> rfl
@[simp] theorem writeReg_params (s : State) (r : Reg) (v : Word) : (s.writeReg r v).params = s.params := by
  unfold State.writeReg; split <;> rfl
@[simp] theorem writeReg_answers (s : State) (r : Reg) (v : Word) : (s.writeReg r v).answers = s.answers := by
  unfold State.writeReg; split <;> rfl
@[simp] theorem writeReg_draws (s : State) (r : Reg) (v : Word) : (s.writeReg r v).draws = s.draws := by
  unfold State.writeReg; split <;> rfl

/-! ## Registers (R22) -/

@[simp] theorem readReg_zero (s : State) : s.readReg 0 = 0#32 := rfl

/-- Reading any register after a write. -/
theorem readReg_writeReg (s : State) (r q : Reg) (v : Word) :
    (s.writeReg r v).readReg q = if q = r then (if r = 0 then 0#32 else v) else s.readReg q := by
  by_cases hr : r.val = 0
  · have : r = 0 := Fin.ext hr
    subst this
    by_cases hq : q = 0
    · subst hq; rfl
    · simp [State.writeReg, hq]
  · have hr0 : r ≠ 0 := fun h => hr (by simp [h])
    by_cases hq : q.val = 0
    · have : q = 0 := Fin.ext hq
      subst this
      simp [Ne.symm hr0]
    · unfold State.readReg State.writeReg
      simp only [hr, hq, dite_false]
      rw [Vector.getElem_set]
      have : (r.val - 1 = q.val - 1) ↔ q = r := by
        rw [Fin.ext_iff]; omega
      simp [this, hr0]

theorem readReg_writeReg_self (s : State) (r : Reg) (v : Word) :
    (s.writeReg r v).readReg r = if r = 0 then 0#32 else v := by simp [readReg_writeReg]

theorem readReg_writeReg_of_ne (s : State) {r q : Reg} (v : Word) (h : q ≠ r) :
    (s.writeReg r v).readReg q = s.readReg q := by simp [readReg_writeReg, h]

@[simp] theorem writeReg_zero (s : State) (v : Word) : s.writeReg 0 v = s := rfl

/-- Two states with equal fields, registers compared through the accessor, are equal. -/
theorem State.ext_of_reads {s t : State} (hpc : s.pc = t.pc) (hregs : ∀ r, s.readReg r = t.readReg r)
    (hmem : s.mem = t.mem) (hinput : s.input = t.input) (hparams : s.params = t.params)
    (hanswers : s.answers = t.answers) (hdraws : s.draws = t.draws) : s = t := by
  have : s.regs = t.regs := by
    ext k hk
    have h := hregs ⟨k + 1, by omega⟩
    simp only [State.readReg, Nat.succ_ne_zero, dite_false, Nat.add_sub_cancel] at h
    exact congrArg (BitVec.getLsbD · _) h
  cases s; cases t; simp_all

/-- The registers after a list of writes. -/
@[simp] theorem writeRegs_pc (l : List (Reg × Word)) : ∀ s : State, (s.writeRegs l).pc = s.pc := by
  induction l with
  | nil => intro s; rfl
  | cons p l ih => intro s; simp [State.writeRegs, ih]

@[simp] theorem writeRegs_mem (l : List (Reg × Word)) : ∀ s : State, (s.writeRegs l).mem = s.mem := by
  induction l with
  | nil => intro s; rfl
  | cons p l ih => intro s; simp [State.writeRegs, ih]

@[simp] theorem writeRegs_params (l : List (Reg × Word)) : ∀ s : State, (s.writeRegs l).params = s.params := by
  induction l with
  | nil => intro s; rfl
  | cons p l ih => intro s; simp [State.writeRegs, ih]

@[simp] theorem writeRegs_answers (l : List (Reg × Word)) : ∀ s : State, (s.writeRegs l).answers = s.answers := by
  induction l with
  | nil => intro s; rfl
  | cons p l ih => intro s; simp [State.writeRegs, ih]

@[simp] theorem writeRegs_draws (l : List (Reg × Word)) : ∀ s : State, (s.writeRegs l).draws = s.draws := by
  induction l with
  | nil => intro s; rfl
  | cons p l ih => intro s; simp [State.writeRegs, ih]

/-! ## Taking an answer of `Env` (48_system.md R246) -/

@[simp] theorem takeAnswer_pc (s : State) (call : SystemCall) (rd : Reg) : (s.takeAnswer call rd).2.pc = s.pc := by
  unfold State.takeAnswer; split <;> [rfl; split <;> rfl]
@[simp] theorem takeAnswer_regs (s : State) (call : SystemCall) (rd : Reg) : (s.takeAnswer call rd).2.regs = s.regs := by
  unfold State.takeAnswer; split <;> [rfl; split <;> rfl]
@[simp] theorem takeAnswer_mem (s : State) (call : SystemCall) (rd : Reg) : (s.takeAnswer call rd).2.mem = s.mem := by
  unfold State.takeAnswer; split <;> [rfl; split <;> rfl]
@[simp] theorem takeAnswer_input (s : State) (call : SystemCall) (rd : Reg) :
    (s.takeAnswer call rd).2.input = s.input := by
  unfold State.takeAnswer; split <;> [rfl; split <;> rfl]
@[simp] theorem takeAnswer_params (s : State) (call : SystemCall) (rd : Reg) :
    (s.takeAnswer call rd).2.params = s.params := by
  unfold State.takeAnswer; split <;> [rfl; split <;> rfl]
@[simp] theorem takeAnswer_readReg (s : State) (call : SystemCall) (rd r : Reg) :
    (s.takeAnswer call rd).2.readReg r = s.readReg r := by
  simp only [State.readReg, takeAnswer_regs]

/-- An answer fixed in advance is taken first, whatever the rule of `Env`. -/
theorem takeAnswer_cons {s : State} {a : EnvAnswer} {later : List EnvAnswer} (h : s.answers = a :: later)
    (call : SystemCall) (rd : Reg) : s.takeAnswer call rd = (a, { s with answers := later }) := by
  unfold State.takeAnswer; rw [h]

/-- The default `Env` refuses (D6). -/
theorem takeAnswer_refuse {s : State} (h : s.answers = []) (he : s.params.env = .refuse) (call : SystemCall) (rd : Reg) :
    s.takeAnswer call rd = (.refuse .refused, s) := by
  unfold State.takeAnswer; rw [h, he]

/-- Any other `Env` is `freeEnv`. -/
theorem takeAnswer_free {s : State} (h : s.answers = []) (he : s.params.env = .free) (call : SystemCall) (rd : Reg) :
    s.takeAnswer call rd =
      (freeEnv s.draws call s.pc s.regs s.mem s.input rd, { s with draws := s.draws + 1 }) := by
  unfold State.takeAnswer; rw [h, he]

/-! ## Reset (R33) -/

theorem reset_readReg (r : Reg) : State.reset.readReg r = 0#32 := by
  unfold State.readReg State.reset
  split
  · rfl
  · simp

end Sys2Proof.Machine
end

