-- ==== Sys2Proof/Laws/Memory.lean ====
section
/-! SUPPORT. The laws of memory (spec 20_memory.md): read after write, the canonical form, the existing addresses, and
the widths of the four accesses. -/

namespace Sys2Proof.Machine

open Sys2Proof

/-! ## A byte at a time -/

@[simp] theorem readByte_nil (a : Nat) : readByte [] a = 0#8 := rfl

/-- Below every listed address memory reads as unlisted. -/
theorem readByte_of_lt (m : Memory) (a : Nat) (h : ∀ c ∈ m, a < c.1) : readByte m a = Memory.unlisted := by
  induction m with
  | nil => rfl
  | cons c m ih =>
    have hc := h c (by simp)
    simp only [readByte, show ¬ c.1 = a by omega, if_false]
    exact ih fun d hd => h d (by simp [hd])

/-- Read after write, in canonical memories. -/
theorem readByte_writeByte (m : Memory) (hm : m.wf) (a : Nat) (b : Byte) (x : Nat) :
    readByte (writeByte m a b) x = if x = a then b else readByte m x := by
  induction m with
  | nil =>
    unfold writeByte
    split
    · rename_i hb; subst hb; simp [Memory.unlisted]
    · simp [readByte, eq_comm, Memory.unlisted]
  | cons c m ih =>
    obtain ⟨k, d⟩ := c
    have hgt : ∀ e ∈ m, k < e.1 := fun e he => (List.pairwise_cons.mp hm.1).1 e he
    have hwf : Memory.wf m := ⟨(List.pairwise_cons.mp hm.1).2, fun e he => hm.2 e (by simp [he])⟩
    have below : ∀ y, y ≤ k → readByte m y = Memory.unlisted := fun y hy =>
      readByte_of_lt m y fun e he => lt_of_le_of_lt hy (hgt e he)
    simp only [writeByte]
    split
    · rename_i hlt
      split
      · rename_i hb; subst hb
        by_cases hx : x = a
        · subst hx
          simp [readByte, show ¬ k = x by omega, below x (by omega)]
        · simp [hx]
      · by_cases hx : x = a
        · simp [readByte, hx]
        · simp [readByte, hx, Ne.symm hx]
    · split
      · rename_i hak; subst hak
        split
        · rename_i hb; subst hb
          by_cases hx : x = a
          · subst hx; simp [below x (le_refl _)]
          · simp [readByte, hx, Ne.symm hx]
        · by_cases hx : x = a
          · simp [readByte, hx]
          · simp [readByte, hx, Ne.symm hx]
      · by_cases hx : k = x
        · subst hx
          rename_i hka
          simp [readByte, Ne.symm hka]
        · simp [readByte, hx, ih hwf]

/-- What a write can leave in the list. -/
theorem mem_writeByte {m : Memory} {a : Nat} {b : Byte} {c : Host.Cell} (h : c ∈ writeByte m a b) :
    (c = (a, b) ∧ b ≠ Memory.unlisted) ∨ c ∈ m := by
  induction m with
  | nil =>
    unfold writeByte at h
    split at h
    · simp at h
    · exact .inl ⟨by simpa using h, ‹_›⟩
  | cons d m ih =>
    obtain ⟨k, e⟩ := d
    simp only [writeByte] at h
    split at h
    · split at h
      · exact .inr h
      · rcases List.mem_cons.mp h with h | h
        · exact .inl ⟨h, ‹_›⟩
        · exact .inr h
    · split at h
      · split at h
        · exact .inr (by simp [h])
        · rcases List.mem_cons.mp h with h | h
          · exact .inl ⟨h, ‹_›⟩
          · exact .inr (by simp [h])
      · rcases List.mem_cons.mp h with h | h
        · exact .inr (by simp [h])
        · rcases ih h with h | h
          · exact .inl h
          · exact .inr (by simp [h])

/-- A write keeps the canonical form. -/
theorem writeByte_wf {m : Memory} (hm : m.wf) (a : Nat) (b : Byte) : (writeByte m a b).wf := by
  refine ⟨?_, fun c hc => ?_⟩
  · induction m with
    | nil => unfold writeByte; split <;> simp
    | cons d m ih =>
      obtain ⟨k, e⟩ := d
      have hgt := (List.pairwise_cons.mp hm.1).1
      have hp := (List.pairwise_cons.mp hm.1).2
      simp only [writeByte]
      split
      · rename_i hlt
        split
        · exact hm.1
        · refine List.pairwise_cons.mpr ⟨fun c hc => ?_, hm.1⟩
          rcases List.mem_cons.mp hc with rfl | hc
          · exact hlt
          · exact lt_trans hlt (hgt c hc)
      · split
        · rename_i hak; subst hak
          split
          · exact hp
          · exact List.pairwise_cons.mpr ⟨hgt, hp⟩
        · refine List.pairwise_cons.mpr ⟨fun c hc => ?_, ih ⟨hp, fun c hc => hm.2 c (by simp [hc])⟩⟩
          rcases mem_writeByte hc with ⟨rfl, -⟩ | hc
          · simp only; omega
          · exact hgt c hc
  · rcases mem_writeByte hc with ⟨rfl, h⟩ | h
    · exact h
    · exact hm.2 c h

/-- A write below `size` lists no address from `size` up. -/
theorem writeByte_within {m : Memory} {size : Nat} (hm : m.within size) {a : Nat} (ha : a < size) (b : Byte) :
    (writeByte m a b).within size := fun c hc => by
  rcases mem_writeByte hc with ⟨rfl, -⟩ | h
  · exact ha
  · exact hm c h

/-- Canonical memories that read alike are equal. -/
theorem Memory.ext_of_reads {m n : Memory} (hm : m.wf) (hn : n.wf) (h : ∀ a, readByte m a = readByte n a) : m = n := by
  induction m generalizing n with
  | nil =>
    cases n with
    | nil => rfl
    | cons c n =>
      have := h c.1
      simp only [readByte, if_true] at this
      exact absurd this.symm (hn.2 c (by simp))
  | cons c m ih =>
    have hgtm := (List.pairwise_cons.mp hm.1).1
    have hwfm : Memory.wf m := ⟨(List.pairwise_cons.mp hm.1).2, fun e he => hm.2 e (by simp [he])⟩
    cases n with
    | nil =>
      have := h c.1
      simp only [readByte, if_true] at this
      exact absurd this (hm.2 c (by simp))
    | cons d n =>
      have hgtn := (List.pairwise_cons.mp hn.1).1
      have hwfn : Memory.wf n := ⟨(List.pairwise_cons.mp hn.1).2, fun e he => hn.2 e (by simp [he])⟩
      have hkey : c.1 = d.1 := by
        rcases lt_trichotomy c.1 d.1 with hlt | heq | hlt
        · have h1 := h c.1
          rw [readByte_of_lt (d :: n) c.1 (fun e he => by
            rcases List.mem_cons.mp he with rfl | he
            · exact hlt
            · exact lt_trans hlt (hgtn e he))] at h1
          simp only [readByte, if_true] at h1
          exact absurd h1 (hm.2 c (by simp))
        · exact heq
        · have h1 := h d.1
          rw [readByte_of_lt (c :: m) d.1 (fun e he => by
            rcases List.mem_cons.mp he with rfl | he
            · exact hlt
            · exact lt_trans hlt (hgtm e he))] at h1
          simp only [readByte, if_true] at h1
          exact absurd h1.symm (hn.2 d (by simp))
      have hval : c.2 = d.2 := by simpa [readByte, hkey] using h c.1
      have htail : m = n := ih hwfm hwfn fun a => by
        by_cases ha : a ≤ c.1
        · rw [readByte_of_lt m a (fun e he => lt_of_le_of_lt ha (hgtm e he)),
            readByte_of_lt n a (fun e he => lt_of_le_of_lt (hkey ▸ ha) (hgtn e he))]
        · have := h a
          simpa [readByte, show ¬ c.1 = a by omega, show ¬ d.1 = a by omega] using this
      rw [htail, Prod.ext hkey hval]

/-! ## Byte lists -/

theorem writeBytes_wf (l : List Byte) : ∀ {m : Memory} (_ : m.wf) (a : Nat), (writeBytes m a l).wf := by
  induction l with
  | nil => intro m hm a; exact hm
  | cons b l ih => intro m hm a; exact ih (writeByte_wf hm a b) (a + 1)

theorem writeBytes_within {size : Nat} (l : List Byte) :
    ∀ {m : Memory} (_ : m.within size) (a : Nat) (_ : a + l.length ≤ size), (writeBytes m a l).within size := by
  induction l with
  | nil => intro m hm a _; exact hm
  | cons b l ih =>
    intro m hm a ha
    simp only [List.length_cons] at ha
    exact ih (writeByte_within hm (by omega) b) (a + 1) (by omega)

/-- Reading any byte after a list of bytes is stored. -/
theorem readByte_writeBytes (l : List Byte) : ∀ (m : Memory) (_ : m.wf) (a x : Nat),
    readByte (writeBytes m a l) x =
      if h : a ≤ x ∧ x < a + l.length then l[x - a]'(by omega) else readByte m x := by
  induction l with
  | nil => intro m _ a x; simp [writeBytes]
  | cons b l ih =>
    intro m hm a x
    simp only [writeBytes, List.length_cons]
    rw [ih _ (writeByte_wf hm a b) (a + 1) x, readByte_writeByte m hm]
    by_cases hxa : x = a
    · subst hxa
      simp
    · by_cases h1 : a + 1 ≤ x ∧ x < a + 1 + l.length
      · have h2 : a ≤ x ∧ x < a + (l.length + 1) := by omega
        have hx : x - a = (x - (a + 1)) + 1 := by omega
        simp only [h1, h2, dite_true, and_self]
        simp [hx]
      · have h2 : ¬ (a ≤ x ∧ x < a + (l.length + 1)) := by omega
        simp only [h1, h2, dite_false, hxa, if_false]

theorem readByte_writeBytes_stored {m : Memory} (hm : m.wf) (l : List Byte) (a k : Nat) (hk : k < l.length) :
    readByte (writeBytes m a l) (a + k) = l[k] := by
  rw [readByte_writeBytes l m hm]
  simp [hk]

theorem readByte_writeBytes_outside {m : Memory} (hm : m.wf) (l : List Byte) (a x : Nat)
    (hx : x < a ∨ a + l.length ≤ x) : readByte (writeBytes m a l) x = readByte m x := by
  rw [readByte_writeBytes l m hm, dif_neg (by omega)]

/-- Writing a byte is writing a list of one byte. -/
theorem writeByte_eq_writeBytes (m : Memory) (a : Nat) (b : Byte) : writeByte m a b = writeBytes m a [b] := rfl

/-! ## Environment writes -/

theorem writeCells_wf (size : Nat) (l : List (Nat × Byte)) : ∀ {m : Memory} (_ : m.wf), (writeCells size m l).wf := by
  induction l with
  | nil => intro m hm; exact hm
  | cons c l ih =>
    intro m hm
    simp only [writeCells]
    split
    · exact ih (writeByte_wf hm _ _)
    · exact ih hm

theorem writeCells_within (size : Nat) (l : List (Nat × Byte)) :
    ∀ {m : Memory} (_ : m.within size), (writeCells size m l).within size := by
  induction l with
  | nil => intro m hm; exact hm
  | cons c l ih =>
    intro m hm
    simp only [writeCells]
    split
    · exact ih (writeByte_within hm ‹_› _)
    · exact ih hm

/-! ## The loaded image -/

theorem mem_imageMemory (l : List Byte) : ∀ (a : Nat) (c : Host.Cell), c ∈ imageMemory a l →
    a ≤ c.1 ∧ c.1 < a + l.length ∧ c.2 ≠ Memory.unlisted := by
  induction l with
  | nil => intro a c h; simp [imageMemory] at h
  | cons b l ih =>
    intro a c h
    simp only [imageMemory] at h
    split at h
    · obtain ⟨h1, h2, h3⟩ := ih (a + 1) c h
      simp only [List.length_cons]
      exact ⟨by omega, by omega, h3⟩
    · rcases List.mem_cons.mp h with rfl | h
      · simp only [List.length_cons]
        exact ⟨le_refl _, by omega, ‹_›⟩
      · obtain ⟨h1, h2, h3⟩ := ih (a + 1) c h
        simp only [List.length_cons]
        exact ⟨by omega, by omega, h3⟩

theorem imageMemory_wf (l : List Byte) : ∀ a : Nat, (imageMemory a l).wf := by
  intro a
  refine ⟨?_, fun c hc => (mem_imageMemory l a c hc).2.2⟩
  induction l generalizing a with
  | nil => simp [imageMemory]
  | cons b l ih =>
    simp only [imageMemory]
    split
    · exact ih (a + 1)
    · refine List.pairwise_cons.mpr ⟨fun c hc => ?_, ih (a + 1)⟩
      have := (mem_imageMemory l (a + 1) c hc).1
      simp only; omega

/-- The image byte at each of its addresses, zero elsewhere. -/
theorem readByte_imageMemory (l : List Byte) : ∀ (a x : Nat),
    readByte (imageMemory a l) x = if h : a ≤ x ∧ x < a + l.length then l[x - a]'(by omega) else 0#8 := by
  induction l with
  | nil => intro a x; simp [imageMemory]
  | cons b l ih =>
    intro a x
    have tail : readByte (imageMemory (a + 1) l) x = if h : a ≤ x ∧ x < a + (b :: l).length
        then (if x = a then 0#8 else (b :: l)[x - a]'(by omega)) else 0#8 := by
      rw [ih (a + 1) x]
      simp only [List.length_cons]
      by_cases hxa : x = a
      · subst hxa; simp
      · by_cases h1 : a + 1 ≤ x ∧ x < a + 1 + l.length
        · have h2 : a ≤ x ∧ x < a + (l.length + 1) := by omega
          have hx : x - a = (x - (a + 1)) + 1 := by omega
          simp only [h1, h2, dite_true, and_self, hxa, if_false]
          simp [hx]
        · have h2 : ¬ (a ≤ x ∧ x < a + (l.length + 1)) := by omega
          simp only [h1, h2, dite_false]
    by_cases hxa : x = a
    · subst hxa
      simp only [imageMemory]
      split
      · rename_i hb
        rw [tail]; simp [hb, Memory.unlisted]
      · simp [readByte]
    · simp only [imageMemory]
      split
      · rw [tail]; simp [hxa]
      · simp only [readByte, Ne.symm hxa, if_false]
        rw [tail]; simp [hxa]

end Sys2Proof.Machine
end

