-- ==== Sys2Proof/Laws/Decode.lean ====
section
/-! SUPPORT. The laws of decoding and encoding (spec 30_encoding.md R71 to R82): the rows are disjoint, what a mask keeps,
the fields of an encoded word, and immediates that survive their format. -/

-- One simp call serves every field of every format, so some of its lemmas are idle in some of them.
set_option linter.unusedSimpArgs false

namespace Sys2Proof

/-! ## The table -/

/-- Two rows that no word can match both (R80: "any two rows differ in a bit that both masks cover"). -/
abbrev Row.disjoint (r q : Row) : Prop := r.mask &&& q.mask &&& (r.pattern ^^^ q.pattern) ≠ 0#32

theorem decodeTable_disjoint (enc : LoadUnsignedEncoding) : (decodeTable enc).Pairwise Row.disjoint := by
  cases enc <;> decide

theorem Row.accepts_iff (r : Row) (w : Word) : r.accepts w = true ↔ w &&& r.mask = r.pattern := by
  simp [Row.accepts]

/-- A word that two rows accept makes them not disjoint. -/
theorem Row.not_disjoint_of_accepts {r q : Row} {w : Word} (hr : r.accepts w = true) (hq : q.accepts w = true) :
    ¬ Row.disjoint r q := by
  rw [Row.accepts_iff] at hr hq
  rw [not_not, ← hr, ← hq]
  ext i hi
  simp only [BitVec.getElem_and, BitVec.getElem_xor, BitVec.getElem_zero]
  cases w[i] <;> cases r.mask[i] <;> cases q.mask[i] <;> rfl

theorem find_of_accepts {l : List Row} (hl : l.Pairwise Row.disjoint) {r : Row} (hr : r ∈ l) {w : Word}
    (h : r.accepts w = true) : l.find? (fun q => q.accepts w) = some r := by
  induction l with
  | nil => simp at hr
  | cons q l ih =>
    rw [List.find?_cons]
    rcases List.mem_cons.mp hr with rfl | hr
    · simp [h]
    · have hd := (List.pairwise_cons.mp hl).1 r hr
      have hq : q.accepts w = false := by
        by_contra hq
        exact Row.not_disjoint_of_accepts (by simpa using hq) h hd
      rw [hq]
      exact ih (List.pairwise_cons.mp hl).2 hr

/-- A word that a row accepts decodes by that row, wherever it stands in the table. -/
theorem decode_of_accepts {enc : LoadUnsignedEncoding} {r : Row} (hr : r ∈ decodeTable enc) {w : Word}
    (h : w &&& r.mask = r.pattern) : decode enc w = .ok (r.operands w) := by
  unfold decode
  rw [find_of_accepts (decodeTable_disjoint enc) hr ((r.accepts_iff w).mpr h)]

/-- All a decode can answer: the operands of one row that accepts the word, or the rejection that no row does. -/
theorem decode_cases (enc : LoadUnsignedEncoding) (w : Word) :
    (∃ r ∈ decodeTable enc, w &&& r.mask = r.pattern ∧ decode enc w = .ok (r.operands w)) ∨
    ((∀ r ∈ decodeTable enc, w &&& r.mask ≠ r.pattern) ∧ decode enc w = .error (.undefinedEncoding w)) := by
  cases h : (decodeTable enc).find? (fun q => q.accepts w) with
  | some r =>
    have ha : w &&& r.mask = r.pattern := (r.accepts_iff w).mp (by simpa using List.find?_some h)
    exact .inl ⟨r, List.mem_of_find?_eq_some h, ha, decode_of_accepts (List.mem_of_find?_eq_some h) ha⟩
  | none =>
    refine .inr ⟨fun r hr ha => ?_, by simp [decode, h]⟩
    have := List.find?_eq_none.mp h r hr
    exact this ((r.accepts_iff w).mpr ha)

/-! ## What a mask keeps: the fields a row is selected by (R71, R79) -/

theorem and_opcodeMask (w : Word) :
    w &&& 0x0000007F#32 = 0#25 ++ w.extractLsb' 0 7 := by
  apply BitVec.eq_of_getLsbD_eq
  intro i hi
  simp only [BitVec.getLsbD_and, BitVec.getLsbD_append, BitVec.getLsbD_extractLsb']
  interval_cases i <;> simp

theorem and_funct3Mask (w : Word) :
    w &&& 0x0000707F#32 = 0#17 ++ w.extractLsb' 12 3 ++ 0#5 ++ w.extractLsb' 0 7 := by
  apply BitVec.eq_of_getLsbD_eq
  intro i hi
  simp only [BitVec.getLsbD_and, BitVec.getLsbD_append, BitVec.getLsbD_extractLsb']
  interval_cases i <;> simp

theorem and_funct7Mask (w : Word) :
    w &&& 0xFE00707F#32 = w.extractLsb' 25 7 ++ 0#10 ++ w.extractLsb' 12 3 ++ 0#5 ++ w.extractLsb' 0 7 := by
  apply BitVec.eq_of_getLsbD_eq
  intro i hi
  simp only [BitVec.getLsbD_and, BitVec.getLsbD_append, BitVec.getLsbD_extractLsb']
  interval_cases i <;> simp

theorem and_systemMask (w : Word) :
    w &&& 0xFFFFF07F#32 = w.extractLsb' 12 20 ++ 0#5 ++ w.extractLsb' 0 7 := by
  apply BitVec.eq_of_getLsbD_eq
  intro i hi
  simp only [BitVec.getLsbD_and, BitVec.getLsbD_append, BitVec.getLsbD_extractLsb']
  interval_cases i <;> simp

/-! ## The fields of an encoded word (R71, R72) -/

@[simp] theorem encodeU_opcode (i : Word) (rd : Reg) (op : BitVec 7) :
    (encodeU i rd op).extractLsb' 0 7 = op := by
  simp (disch := omega) only [encodeU, BitVec.extractLsb'_append_eq_of_add_le, BitVec.extractLsb'_append_eq_of_le,
    BitVec.extractLsb'_eq_self, Nat.reduceSub, Nat.sub_self, Reg.ofBits_toBits]

@[simp] theorem encodeU_rd (i : Word) (rd : Reg) (op : BitVec 7) :
    rdField (encodeU i rd op) = rd := by
  simp (disch := omega) only [rdField, encodeU, BitVec.extractLsb'_append_eq_of_add_le, BitVec.extractLsb'_append_eq_of_le,
    BitVec.extractLsb'_eq_self, Nat.reduceSub, Nat.sub_self, Reg.ofBits_toBits]

@[simp] theorem encodeJ_opcode (i : Word) (rd : Reg) (op : BitVec 7) :
    (encodeJ i rd op).extractLsb' 0 7 = op := by
  simp (disch := omega) only [encodeJ, BitVec.extractLsb'_append_eq_of_add_le, BitVec.extractLsb'_append_eq_of_le,
    BitVec.extractLsb'_eq_self, Nat.reduceSub, Nat.sub_self, Reg.ofBits_toBits]

@[simp] theorem encodeJ_rd (i : Word) (rd : Reg) (op : BitVec 7) :
    rdField (encodeJ i rd op) = rd := by
  simp (disch := omega) only [rdField, encodeJ, BitVec.extractLsb'_append_eq_of_add_le, BitVec.extractLsb'_append_eq_of_le,
    BitVec.extractLsb'_eq_self, Nat.reduceSub, Nat.sub_self, Reg.ofBits_toBits]

@[simp] theorem encodeI_opcode (i : Word) (rs1 : Reg) (f3 : BitVec 3) (rd : Reg) (op : BitVec 7) :
    (encodeI i rs1 f3 rd op).extractLsb' 0 7 = op := by
  simp (disch := omega) only [encodeI, BitVec.extractLsb'_append_eq_of_add_le, BitVec.extractLsb'_append_eq_of_le,
    BitVec.extractLsb'_eq_self, Nat.reduceSub, Nat.sub_self, Reg.ofBits_toBits]

@[simp] theorem encodeI_rd (i : Word) (rs1 : Reg) (f3 : BitVec 3) (rd : Reg) (op : BitVec 7) :
    rdField (encodeI i rs1 f3 rd op) = rd := by
  simp (disch := omega) only [rdField, encodeI, BitVec.extractLsb'_append_eq_of_add_le, BitVec.extractLsb'_append_eq_of_le,
    BitVec.extractLsb'_eq_self, Nat.reduceSub, Nat.sub_self, Reg.ofBits_toBits]

@[simp] theorem encodeI_funct3 (i : Word) (rs1 : Reg) (f3 : BitVec 3) (rd : Reg) (op : BitVec 7) :
    (encodeI i rs1 f3 rd op).extractLsb' 12 3 = f3 := by
  simp (disch := omega) only [encodeI, BitVec.extractLsb'_append_eq_of_add_le, BitVec.extractLsb'_append_eq_of_le,
    BitVec.extractLsb'_eq_self, Nat.reduceSub, Nat.sub_self, Reg.ofBits_toBits]

@[simp] theorem encodeI_rs1 (i : Word) (rs1 : Reg) (f3 : BitVec 3) (rd : Reg) (op : BitVec 7) :
    rs1Field (encodeI i rs1 f3 rd op) = rs1 := by
  simp (disch := omega) only [rs1Field, encodeI, BitVec.extractLsb'_append_eq_of_add_le, BitVec.extractLsb'_append_eq_of_le,
    BitVec.extractLsb'_eq_self, Nat.reduceSub, Nat.sub_self, Reg.ofBits_toBits]

@[simp] theorem encodeISH_opcode (f7 : BitVec 7) (i : Word) (rs1 : Reg) (f3 : BitVec 3) (rd : Reg) (op : BitVec 7) :
    (encodeISH f7 i rs1 f3 rd op).extractLsb' 0 7 = op := by
  simp (disch := omega) only [encodeISH, BitVec.extractLsb'_append_eq_of_add_le, BitVec.extractLsb'_append_eq_of_le,
    BitVec.extractLsb'_eq_self, Nat.reduceSub, Nat.sub_self, Reg.ofBits_toBits]

@[simp] theorem encodeISH_rd (f7 : BitVec 7) (i : Word) (rs1 : Reg) (f3 : BitVec 3) (rd : Reg) (op : BitVec 7) :
    rdField (encodeISH f7 i rs1 f3 rd op) = rd := by
  simp (disch := omega) only [rdField, encodeISH, BitVec.extractLsb'_append_eq_of_add_le, BitVec.extractLsb'_append_eq_of_le,
    BitVec.extractLsb'_eq_self, Nat.reduceSub, Nat.sub_self, Reg.ofBits_toBits]

@[simp] theorem encodeISH_funct3 (f7 : BitVec 7) (i : Word) (rs1 : Reg) (f3 : BitVec 3) (rd : Reg) (op : BitVec 7) :
    (encodeISH f7 i rs1 f3 rd op).extractLsb' 12 3 = f3 := by
  simp (disch := omega) only [encodeISH, BitVec.extractLsb'_append_eq_of_add_le, BitVec.extractLsb'_append_eq_of_le,
    BitVec.extractLsb'_eq_self, Nat.reduceSub, Nat.sub_self, Reg.ofBits_toBits]

@[simp] theorem encodeISH_rs1 (f7 : BitVec 7) (i : Word) (rs1 : Reg) (f3 : BitVec 3) (rd : Reg) (op : BitVec 7) :
    rs1Field (encodeISH f7 i rs1 f3 rd op) = rs1 := by
  simp (disch := omega) only [rs1Field, encodeISH, BitVec.extractLsb'_append_eq_of_add_le, BitVec.extractLsb'_append_eq_of_le,
    BitVec.extractLsb'_eq_self, Nat.reduceSub, Nat.sub_self, Reg.ofBits_toBits]

@[simp] theorem encodeISH_funct7 (f7 : BitVec 7) (i : Word) (rs1 : Reg) (f3 : BitVec 3) (rd : Reg) (op : BitVec 7) :
    (encodeISH f7 i rs1 f3 rd op).extractLsb' 25 7 = f7 := by
  simp (disch := omega) only [encodeISH, BitVec.extractLsb'_append_eq_of_add_le, BitVec.extractLsb'_append_eq_of_le,
    BitVec.extractLsb'_eq_self, Nat.reduceSub, Nat.sub_self, Reg.ofBits_toBits]

@[simp] theorem encodeB_opcode (i : Word) (rs2 rs1 : Reg) (f3 : BitVec 3) (op : BitVec 7) :
    (encodeB i rs2 rs1 f3 op).extractLsb' 0 7 = op := by
  simp (disch := omega) only [encodeB, BitVec.extractLsb'_append_eq_of_add_le, BitVec.extractLsb'_append_eq_of_le,
    BitVec.extractLsb'_eq_self, Nat.reduceSub, Nat.sub_self, Reg.ofBits_toBits]

@[simp] theorem encodeB_funct3 (i : Word) (rs2 rs1 : Reg) (f3 : BitVec 3) (op : BitVec 7) :
    (encodeB i rs2 rs1 f3 op).extractLsb' 12 3 = f3 := by
  simp (disch := omega) only [encodeB, BitVec.extractLsb'_append_eq_of_add_le, BitVec.extractLsb'_append_eq_of_le,
    BitVec.extractLsb'_eq_self, Nat.reduceSub, Nat.sub_self, Reg.ofBits_toBits]

@[simp] theorem encodeB_rs1 (i : Word) (rs2 rs1 : Reg) (f3 : BitVec 3) (op : BitVec 7) :
    rs1Field (encodeB i rs2 rs1 f3 op) = rs1 := by
  simp (disch := omega) only [rs1Field, encodeB, BitVec.extractLsb'_append_eq_of_add_le, BitVec.extractLsb'_append_eq_of_le,
    BitVec.extractLsb'_eq_self, Nat.reduceSub, Nat.sub_self, Reg.ofBits_toBits]

@[simp] theorem encodeB_rs2 (i : Word) (rs2 rs1 : Reg) (f3 : BitVec 3) (op : BitVec 7) :
    rs2Field (encodeB i rs2 rs1 f3 op) = rs2 := by
  simp (disch := omega) only [rs2Field, encodeB, BitVec.extractLsb'_append_eq_of_add_le, BitVec.extractLsb'_append_eq_of_le,
    BitVec.extractLsb'_eq_self, Nat.reduceSub, Nat.sub_self, Reg.ofBits_toBits]

@[simp] theorem encodeS_opcode (i : Word) (rs2 rs1 : Reg) (f3 : BitVec 3) (op : BitVec 7) :
    (encodeS i rs2 rs1 f3 op).extractLsb' 0 7 = op := by
  simp (disch := omega) only [encodeS, BitVec.extractLsb'_append_eq_of_add_le, BitVec.extractLsb'_append_eq_of_le,
    BitVec.extractLsb'_eq_self, Nat.reduceSub, Nat.sub_self, Reg.ofBits_toBits]

@[simp] theorem encodeS_funct3 (i : Word) (rs2 rs1 : Reg) (f3 : BitVec 3) (op : BitVec 7) :
    (encodeS i rs2 rs1 f3 op).extractLsb' 12 3 = f3 := by
  simp (disch := omega) only [encodeS, BitVec.extractLsb'_append_eq_of_add_le, BitVec.extractLsb'_append_eq_of_le,
    BitVec.extractLsb'_eq_self, Nat.reduceSub, Nat.sub_self, Reg.ofBits_toBits]

@[simp] theorem encodeS_rs1 (i : Word) (rs2 rs1 : Reg) (f3 : BitVec 3) (op : BitVec 7) :
    rs1Field (encodeS i rs2 rs1 f3 op) = rs1 := by
  simp (disch := omega) only [rs1Field, encodeS, BitVec.extractLsb'_append_eq_of_add_le, BitVec.extractLsb'_append_eq_of_le,
    BitVec.extractLsb'_eq_self, Nat.reduceSub, Nat.sub_self, Reg.ofBits_toBits]

@[simp] theorem encodeS_rs2 (i : Word) (rs2 rs1 : Reg) (f3 : BitVec 3) (op : BitVec 7) :
    rs2Field (encodeS i rs2 rs1 f3 op) = rs2 := by
  simp (disch := omega) only [rs2Field, encodeS, BitVec.extractLsb'_append_eq_of_add_le, BitVec.extractLsb'_append_eq_of_le,
    BitVec.extractLsb'_eq_self, Nat.reduceSub, Nat.sub_self, Reg.ofBits_toBits]

@[simp] theorem encodeR_opcode (f7 : BitVec 7) (rs2 rs1 : Reg) (f3 : BitVec 3) (rd : Reg) (op : BitVec 7) :
    (encodeR f7 rs2 rs1 f3 rd op).extractLsb' 0 7 = op := by
  simp (disch := omega) only [encodeR, BitVec.extractLsb'_append_eq_of_add_le, BitVec.extractLsb'_append_eq_of_le,
    BitVec.extractLsb'_eq_self, Nat.reduceSub, Nat.sub_self, Reg.ofBits_toBits]

@[simp] theorem encodeR_rd (f7 : BitVec 7) (rs2 rs1 : Reg) (f3 : BitVec 3) (rd : Reg) (op : BitVec 7) :
    rdField (encodeR f7 rs2 rs1 f3 rd op) = rd := by
  simp (disch := omega) only [rdField, encodeR, BitVec.extractLsb'_append_eq_of_add_le, BitVec.extractLsb'_append_eq_of_le,
    BitVec.extractLsb'_eq_self, Nat.reduceSub, Nat.sub_self, Reg.ofBits_toBits]

@[simp] theorem encodeR_funct3 (f7 : BitVec 7) (rs2 rs1 : Reg) (f3 : BitVec 3) (rd : Reg) (op : BitVec 7) :
    (encodeR f7 rs2 rs1 f3 rd op).extractLsb' 12 3 = f3 := by
  simp (disch := omega) only [encodeR, BitVec.extractLsb'_append_eq_of_add_le, BitVec.extractLsb'_append_eq_of_le,
    BitVec.extractLsb'_eq_self, Nat.reduceSub, Nat.sub_self, Reg.ofBits_toBits]

@[simp] theorem encodeR_rs1 (f7 : BitVec 7) (rs2 rs1 : Reg) (f3 : BitVec 3) (rd : Reg) (op : BitVec 7) :
    rs1Field (encodeR f7 rs2 rs1 f3 rd op) = rs1 := by
  simp (disch := omega) only [rs1Field, encodeR, BitVec.extractLsb'_append_eq_of_add_le, BitVec.extractLsb'_append_eq_of_le,
    BitVec.extractLsb'_eq_self, Nat.reduceSub, Nat.sub_self, Reg.ofBits_toBits]

@[simp] theorem encodeR_rs2 (f7 : BitVec 7) (rs2 rs1 : Reg) (f3 : BitVec 3) (rd : Reg) (op : BitVec 7) :
    rs2Field (encodeR f7 rs2 rs1 f3 rd op) = rs2 := by
  simp (disch := omega) only [rs2Field, encodeR, BitVec.extractLsb'_append_eq_of_add_le, BitVec.extractLsb'_append_eq_of_le,
    BitVec.extractLsb'_eq_self, Nat.reduceSub, Nat.sub_self, Reg.ofBits_toBits]

@[simp] theorem encodeR_funct7 (f7 : BitVec 7) (rs2 rs1 : Reg) (f3 : BitVec 3) (rd : Reg) (op : BitVec 7) :
    (encodeR f7 rs2 rs1 f3 rd op).extractLsb' 25 7 = f7 := by
  simp (disch := omega) only [encodeR, BitVec.extractLsb'_append_eq_of_add_le, BitVec.extractLsb'_append_eq_of_le,
    BitVec.extractLsb'_eq_self, Nat.reduceSub, Nat.sub_self, Reg.ofBits_toBits]

@[simp] theorem encodeSYS_opcode (const : BitVec 20) (rd : Reg) (op : BitVec 7) :
    (encodeSYS const rd op).extractLsb' 0 7 = op := by
  simp (disch := omega) only [encodeSYS, BitVec.extractLsb'_append_eq_of_add_le, BitVec.extractLsb'_append_eq_of_le,
    BitVec.extractLsb'_eq_self, Nat.reduceSub, Nat.sub_self, Reg.ofBits_toBits]

@[simp] theorem encodeSYS_rd (const : BitVec 20) (rd : Reg) (op : BitVec 7) :
    rdField (encodeSYS const rd op) = rd := by
  simp (disch := omega) only [rdField, encodeSYS, BitVec.extractLsb'_append_eq_of_add_le, BitVec.extractLsb'_append_eq_of_le,
    BitVec.extractLsb'_eq_self, Nat.reduceSub, Nat.sub_self, Reg.ofBits_toBits]

@[simp] theorem encodeSYS_const (const : BitVec 20) (rd : Reg) (op : BitVec 7) :
    (encodeSYS const rd op).extractLsb' 12 20 = const := by
  simp (disch := omega) only [encodeSYS, BitVec.extractLsb'_append_eq_of_add_le, BitVec.extractLsb'_append_eq_of_le,
    BitVec.extractLsb'_eq_self, Nat.reduceSub, Nat.sub_self, Reg.ofBits_toBits]

/-! ## Immediates that survive their format (R73 to R78) -/

/-- A word in the signed range of `n` bits is the sign extension of its low `n` bits. -/
theorem signExtend_extract {i : Word} {n : Nat} (hn : 1 ≤ n ∧ n ≤ 32)
    (h : -(2 : Int) ^ (n - 1) ≤ i.toInt ∧ i.toInt < (2 : Int) ^ (n - 1)) :
    (i.extractLsb' 0 n).signExtend 32 = i := by
  apply BitVec.eq_of_toInt_eq
  have hpow : (2 : Int) ^ n = 2 * 2 ^ (n - 1) := by
    obtain ⟨k, rfl⟩ : ∃ k, n = k + 1 := ⟨n - 1, by omega⟩
    simp [pow_succ, mul_comm]
  have hmod : (i.toNat : Int).bmod (2 ^ n) = i.toInt.bmod (2 ^ n) := by
    rw [BitVec.toInt_eq_toNat_bmod, Int.bmod_bmod_of_dvd (Nat.pow_dvd_pow 2 hn.2)]
  rw [BitVec.toInt_signExtend, BitVec.toInt_extractLsb', Nat.min_eq_right hn.2, Nat.shiftRight_zero, Int.bmod_bmod, hmod]
  apply Int.bmod_eq_of_le
  · push_cast; omega
  · push_cast; omega

theorem fitsI_iff (i : Word) : fitsI i = true ↔ -2048 ≤ i.toInt ∧ i.toInt ≤ 2047 := by simp

theorem fitsB_iff (i : Word) : fitsB i = true ↔ (-4096 ≤ i.toInt ∧ i.toInt ≤ 4094) ∧ i.toNat % 2 = 0 := by
  simp

theorem fitsJ_iff (i : Word) :
    fitsJ i = true ↔ (-1048576 ≤ i.toInt ∧ i.toInt ≤ 1048574) ∧ i.toNat % 2 = 0 := by simp

/-- Bit 0 of an even word. -/
theorem extract_zero_of_even {i : Word} (h : i.toNat % 2 = 0) : i.extractLsb' 0 1 = 0#1 := by
  apply BitVec.eq_of_toNat_eq
  simp [BitVec.extractLsb'_toNat, h]

theorem encodeI_imm (i : Word) (rs1 : Reg) (f3 : BitVec 3) (rd : Reg) (op : BitVec 7) :
    (encodeI i rs1 f3 rd op).extractLsb' 20 12 = i.extractLsb' 0 12 := by
  simp (disch := omega) only [encodeI, BitVec.extractLsb'_append_eq_of_add_le, BitVec.extractLsb'_append_eq_of_le,
    BitVec.extractLsb'_eq_self, Nat.reduceSub, Nat.sub_self]

theorem encodeS_immHigh (i : Word) (rs2 rs1 : Reg) (f3 : BitVec 3) (op : BitVec 7) :
    (encodeS i rs2 rs1 f3 op).extractLsb' 25 7 = i.extractLsb' 5 7 := by
  simp (disch := omega) only [encodeS, BitVec.extractLsb'_append_eq_of_add_le, BitVec.extractLsb'_append_eq_of_le,
    BitVec.extractLsb'_eq_self, Nat.reduceSub, Nat.sub_self]

theorem encodeS_immLow (i : Word) (rs2 rs1 : Reg) (f3 : BitVec 3) (op : BitVec 7) :
    (encodeS i rs2 rs1 f3 op).extractLsb' 7 5 = i.extractLsb' 0 5 := by
  simp (disch := omega) only [encodeS, BitVec.extractLsb'_append_eq_of_add_le, BitVec.extractLsb'_append_eq_of_le,
    BitVec.extractLsb'_eq_self, Nat.reduceSub, Nat.sub_self]

theorem encodeU_imm (i : Word) (rd : Reg) (op : BitVec 7) :
    (encodeU i rd op).extractLsb' 12 20 = i.extractLsb' 12 20 := by
  simp (disch := omega) only [encodeU, BitVec.extractLsb'_append_eq_of_add_le, BitVec.extractLsb'_append_eq_of_le,
    BitVec.extractLsb'_eq_self, Nat.reduceSub, Nat.sub_self]

theorem encodeISH_imm (f7 : BitVec 7) (i : Word) (rs1 : Reg) (f3 : BitVec 3) (rd : Reg) (op : BitVec 7) :
    (encodeISH f7 i rs1 f3 rd op).extractLsb' 20 5 = i.extractLsb' 0 5 := by
  simp (disch := omega) only [encodeISH, BitVec.extractLsb'_append_eq_of_add_le, BitVec.extractLsb'_append_eq_of_le,
    BitVec.extractLsb'_eq_self, Nat.reduceSub, Nat.sub_self]

theorem encodeB_imm12 (i : Word) (rs2 rs1 : Reg) (f3 : BitVec 3) (op : BitVec 7) :
    (encodeB i rs2 rs1 f3 op).extractLsb' 31 1 = i.extractLsb' 12 1 := by
  simp (disch := omega) only [encodeB, BitVec.extractLsb'_append_eq_of_add_le, BitVec.extractLsb'_append_eq_of_le,
    BitVec.extractLsb'_eq_self, Nat.reduceSub, Nat.sub_self]

theorem encodeB_imm11 (i : Word) (rs2 rs1 : Reg) (f3 : BitVec 3) (op : BitVec 7) :
    (encodeB i rs2 rs1 f3 op).extractLsb' 7 1 = i.extractLsb' 11 1 := by
  simp (disch := omega) only [encodeB, BitVec.extractLsb'_append_eq_of_add_le, BitVec.extractLsb'_append_eq_of_le,
    BitVec.extractLsb'_eq_self, Nat.reduceSub, Nat.sub_self]

theorem encodeB_immHigh (i : Word) (rs2 rs1 : Reg) (f3 : BitVec 3) (op : BitVec 7) :
    (encodeB i rs2 rs1 f3 op).extractLsb' 25 6 = i.extractLsb' 5 6 := by
  simp (disch := omega) only [encodeB, BitVec.extractLsb'_append_eq_of_add_le, BitVec.extractLsb'_append_eq_of_le,
    BitVec.extractLsb'_eq_self, Nat.reduceSub, Nat.sub_self]

theorem encodeB_immLow (i : Word) (rs2 rs1 : Reg) (f3 : BitVec 3) (op : BitVec 7) :
    (encodeB i rs2 rs1 f3 op).extractLsb' 8 4 = i.extractLsb' 1 4 := by
  simp (disch := omega) only [encodeB, BitVec.extractLsb'_append_eq_of_add_le, BitVec.extractLsb'_append_eq_of_le,
    BitVec.extractLsb'_eq_self, Nat.reduceSub, Nat.sub_self]

theorem encodeJ_imm20 (i : Word) (rd : Reg) (op : BitVec 7) :
    (encodeJ i rd op).extractLsb' 31 1 = i.extractLsb' 20 1 := by
  simp (disch := omega) only [encodeJ, BitVec.extractLsb'_append_eq_of_add_le, BitVec.extractLsb'_append_eq_of_le,
    BitVec.extractLsb'_eq_self, Nat.reduceSub, Nat.sub_self]

theorem encodeJ_immMid (i : Word) (rd : Reg) (op : BitVec 7) :
    (encodeJ i rd op).extractLsb' 12 8 = i.extractLsb' 12 8 := by
  simp (disch := omega) only [encodeJ, BitVec.extractLsb'_append_eq_of_add_le, BitVec.extractLsb'_append_eq_of_le,
    BitVec.extractLsb'_eq_self, Nat.reduceSub, Nat.sub_self]

theorem encodeJ_imm11 (i : Word) (rd : Reg) (op : BitVec 7) :
    (encodeJ i rd op).extractLsb' 20 1 = i.extractLsb' 11 1 := by
  simp (disch := omega) only [encodeJ, BitVec.extractLsb'_append_eq_of_add_le, BitVec.extractLsb'_append_eq_of_le,
    BitVec.extractLsb'_eq_self, Nat.reduceSub, Nat.sub_self]

theorem encodeJ_immLow (i : Word) (rd : Reg) (op : BitVec 7) :
    (encodeJ i rd op).extractLsb' 21 10 = i.extractLsb' 1 10 := by
  simp (disch := omega) only [encodeJ, BitVec.extractLsb'_append_eq_of_add_le, BitVec.extractLsb'_append_eq_of_le,
    BitVec.extractLsb'_eq_self, Nat.reduceSub, Nat.sub_self]

theorem immI_encodeI {i : Word} (h : fitsI i = true) (rs1 : Reg) (f3 : BitVec 3) (rd : Reg) (op : BitVec 7) :
    immI (encodeI i rs1 f3 rd op) = i := by
  rw [fitsI_iff] at h
  rw [immI, encodeI_imm]
  exact signExtend_extract (by omega) (by norm_num; omega)

theorem immS_encodeS {i : Word} (h : fitsI i = true) (rs2 rs1 : Reg) (f3 : BitVec 3) (op : BitVec 7) :
    immS (encodeS i rs2 rs1 f3 op) = i := by
  rw [fitsI_iff] at h
  rw [immS, encodeS_immHigh, encodeS_immLow, BitVec.extractLsb'_append_extractLsb'_eq_extractLsb' (start₂ := 5) (start₁ := 0) rfl]
  exact signExtend_extract (n := 12) (by omega) (by norm_num; omega)

/-- The pieces of a B-immediate are the low 13 bits of the value. -/
theorem immB_pieces {i : Word} (h : i.toNat % 2 = 0) :
    (i.extractLsb' 12 1 ++ i.extractLsb' 11 1 ++ i.extractLsb' 5 6 ++ i.extractLsb' 1 4 ++ 0#1 : BitVec 13) =
      i.extractLsb' 0 13 := by
  rw [← extract_zero_of_even h, BitVec.extractLsb'_append_extractLsb'_eq_extractLsb' (start₂ := 12) (start₁ := 11) rfl,
    BitVec.extractLsb'_append_extractLsb'_eq_extractLsb' (start₂ := 11) (start₁ := 5) rfl,
    BitVec.extractLsb'_append_extractLsb'_eq_extractLsb' (start₂ := 5) (start₁ := 1) rfl,
    BitVec.extractLsb'_append_extractLsb'_eq_extractLsb' (start₂ := 1) (start₁ := 0) rfl]

theorem immB_encodeB {i : Word} (h : fitsB i = true) (rs2 rs1 : Reg) (f3 : BitVec 3) (op : BitVec 7) :
    immB (encodeB i rs2 rs1 f3 op) = i := by
  rw [fitsB_iff] at h
  rw [immB, encodeB_imm12, encodeB_imm11, encodeB_immHigh, encodeB_immLow, immB_pieces h.2]
  exact signExtend_extract (by omega) (by norm_num; omega)

theorem immU_encodeU {i : Word} (h : fitsU i = true) (rd : Reg) (op : BitVec 7) : immU (encodeU i rd op) = i := by
  have h0 : i.extractLsb' 0 12 = 0#12 := by
    apply BitVec.eq_of_toNat_eq
    simp only [decide_eq_true_eq] at h
    simp [BitVec.extractLsb'_toNat, h]
  rw [immU, encodeU_imm, ← h0, BitVec.extractLsb'_append_extractLsb'_eq_extractLsb' (start₂ := 12) (start₁ := 0) rfl]
  exact BitVec.extractLsb'_eq_self

/-- The pieces of a J-immediate are the low 21 bits of the value. -/
theorem immJ_pieces {i : Word} (h : i.toNat % 2 = 0) :
    (i.extractLsb' 20 1 ++ i.extractLsb' 12 8 ++ i.extractLsb' 11 1 ++ i.extractLsb' 1 10 ++ 0#1 : BitVec 21) =
      i.extractLsb' 0 21 := by
  rw [← extract_zero_of_even h, BitVec.extractLsb'_append_extractLsb'_eq_extractLsb' (start₂ := 20) (start₁ := 12) rfl,
    BitVec.extractLsb'_append_extractLsb'_eq_extractLsb' (start₂ := 12) (start₁ := 11) rfl,
    BitVec.extractLsb'_append_extractLsb'_eq_extractLsb' (start₂ := 11) (start₁ := 1) rfl,
    BitVec.extractLsb'_append_extractLsb'_eq_extractLsb' (start₂ := 1) (start₁ := 0) rfl]

theorem immJ_encodeJ {i : Word} (h : fitsJ i = true) (rd : Reg) (op : BitVec 7) : immJ (encodeJ i rd op) = i := by
  rw [fitsJ_iff] at h
  rw [immJ, encodeJ_imm20, encodeJ_immMid, encodeJ_imm11, encodeJ_immLow, immJ_pieces h.2]
  exact signExtend_extract (by omega) (by norm_num; omega)

theorem immSH_encodeISH {i : Word} (h : fitsSH i = true) (f7 : BitVec 7) (rs1 : Reg) (f3 : BitVec 3) (rd : Reg)
    (op : BitVec 7) : immSH (encodeISH f7 i rs1 f3 rd op) = i := by
  rw [immSH, encodeISH_imm]
  apply BitVec.eq_of_toNat_eq
  simp only [decide_eq_true_eq] at h
  simp [BitVec.extractLsb'_toNat]
  omega

/-! ## A word is the encoding of its own fields (R71, R72) -/

theorem toBits_rdField (w : Word) : (rdField w).toBits = w.extractLsb' 7 5 := rfl
theorem toBits_rs1Field (w : Word) : (rs1Field w).toBits = w.extractLsb' 15 5 := rfl
theorem toBits_rs2Field (w : Word) : (rs2Field w).toBits = w.extractLsb' 20 5 := rfl

/-- The low bits of a sign extension. -/
theorem extract_signExtend {n : Nat} (x : BitVec n) {start len : Nat} (h : start + len ≤ n) (h32 : n ≤ 32) :
    (x.signExtend 32).extractLsb' start len = x.extractLsb' start len := by
  apply BitVec.eq_of_getLsbD_eq
  intro k hk
  have h1 : start + k < 32 := by omega
  have h2 : start + k < n := by omega
  simp [BitVec.getLsbD_extractLsb', BitVec.getElem_signExtend, hk, h1, h2]

theorem encodeU_of_fields {w : Word} {op : BitVec 7} (hop : w.extractLsb' 0 7 = op) :
    encodeU (immU w) (rdField w) op = w := by
  subst hop
  have : (immU w).extractLsb' 12 20 = w.extractLsb' 12 20 := by
    simp (disch := omega) only [immU, BitVec.extractLsb'_append_eq_of_le, BitVec.extractLsb'_eq_self, Nat.sub_self]
  rw [encodeU, this, toBits_rdField, BitVec.extractLsb'_append_extractLsb'_eq_extractLsb' (start₂ := 12) (start₁ := 7) rfl, BitVec.extractLsb'_append_extractLsb'_eq_extractLsb' (start₂ := 7) (start₁ := 0) rfl]
  exact BitVec.extractLsb'_eq_self

theorem encodeJ_of_fields {w : Word} {op : BitVec 7} (hop : w.extractLsb' 0 7 = op) :
    encodeJ (immJ w) (rdField w) op = w := by
  subst hop
  have h (start len : Nat) (h : start + len ≤ 21) : (immJ w).extractLsb' start len =
      (w.extractLsb' 31 1 ++ w.extractLsb' 12 8 ++ w.extractLsb' 20 1 ++ w.extractLsb' 21 10 ++ 0#1 :
        BitVec 21).extractLsb' start len := extract_signExtend _ h (by omega)
  have h20 : (immJ w).extractLsb' 20 1 = w.extractLsb' 31 1 := by
    rw [h _ _ (by omega)]
    simp (disch := omega) only [BitVec.extractLsb'_append_eq_of_add_le, BitVec.extractLsb'_append_eq_of_le,
      BitVec.extractLsb'_eq_self, Nat.reduceSub, Nat.sub_self]
  have h1 : (immJ w).extractLsb' 1 10 = w.extractLsb' 21 10 := by
    rw [h _ _ (by omega)]
    simp (disch := omega) only [BitVec.extractLsb'_append_eq_of_add_le, BitVec.extractLsb'_append_eq_of_le,
      BitVec.extractLsb'_eq_self, Nat.reduceSub, Nat.sub_self]
  have h11 : (immJ w).extractLsb' 11 1 = w.extractLsb' 20 1 := by
    rw [h _ _ (by omega)]
    simp (disch := omega) only [BitVec.extractLsb'_append_eq_of_add_le, BitVec.extractLsb'_append_eq_of_le,
      BitVec.extractLsb'_eq_self, Nat.reduceSub, Nat.sub_self]
  have h12 : (immJ w).extractLsb' 12 8 = w.extractLsb' 12 8 := by
    rw [h _ _ (by omega)]
    simp (disch := omega) only [BitVec.extractLsb'_append_eq_of_add_le, BitVec.extractLsb'_append_eq_of_le,
      BitVec.extractLsb'_eq_self, Nat.reduceSub, Nat.sub_self]
  rw [encodeJ, h20, h1, h11, h12, toBits_rdField, BitVec.extractLsb'_append_extractLsb'_eq_extractLsb' (start₂ := 31) (start₁ := 21) rfl,
    BitVec.extractLsb'_append_extractLsb'_eq_extractLsb' (start₂ := 21) (start₁ := 20) rfl,
    BitVec.extractLsb'_append_extractLsb'_eq_extractLsb' (start₂ := 20) (start₁ := 12) rfl,
    BitVec.extractLsb'_append_extractLsb'_eq_extractLsb' (start₂ := 12) (start₁ := 7) rfl, BitVec.extractLsb'_append_extractLsb'_eq_extractLsb' (start₂ := 7) (start₁ := 0) rfl]
  exact BitVec.extractLsb'_eq_self

theorem encodeI_of_fields {w : Word} {f3 : BitVec 3} {op : BitVec 7} (hop : w.extractLsb' 0 7 = op)
    (hf3 : w.extractLsb' 12 3 = f3) : encodeI (immI w) (rs1Field w) f3 (rdField w) op = w := by
  subst hop hf3
  have : (immI w).extractLsb' 0 12 = w.extractLsb' 20 12 := by
    rw [immI, extract_signExtend _ (by omega) (by omega), BitVec.extractLsb'_eq_self]
  rw [encodeI, this, toBits_rdField, toBits_rs1Field, BitVec.extractLsb'_append_extractLsb'_eq_extractLsb' (start₂ := 20) (start₁ := 15) rfl,
    BitVec.extractLsb'_append_extractLsb'_eq_extractLsb' (start₂ := 15) (start₁ := 12) rfl,
    BitVec.extractLsb'_append_extractLsb'_eq_extractLsb' (start₂ := 12) (start₁ := 7) rfl, BitVec.extractLsb'_append_extractLsb'_eq_extractLsb' (start₂ := 7) (start₁ := 0) rfl]
  exact BitVec.extractLsb'_eq_self

theorem encodeISH_of_fields {w : Word} {f7 : BitVec 7} {f3 : BitVec 3} {op : BitVec 7}
    (hop : w.extractLsb' 0 7 = op) (hf3 : w.extractLsb' 12 3 = f3) (hf7 : w.extractLsb' 25 7 = f7) :
    encodeISH f7 (immSH w) (rs1Field w) f3 (rdField w) op = w := by
  subst hop hf3 hf7
  have : (immSH w).extractLsb' 0 5 = w.extractLsb' 20 5 := by
    rw [immSH, BitVec.extractLsb'_setWidth_of_le (by omega), BitVec.extractLsb'_eq_self]
  rw [encodeISH, this, toBits_rdField, toBits_rs1Field, BitVec.extractLsb'_append_extractLsb'_eq_extractLsb' (start₂ := 25) (start₁ := 20) rfl,
    BitVec.extractLsb'_append_extractLsb'_eq_extractLsb' (start₂ := 20) (start₁ := 15) rfl,
    BitVec.extractLsb'_append_extractLsb'_eq_extractLsb' (start₂ := 15) (start₁ := 12) rfl,
    BitVec.extractLsb'_append_extractLsb'_eq_extractLsb' (start₂ := 12) (start₁ := 7) rfl, BitVec.extractLsb'_append_extractLsb'_eq_extractLsb' (start₂ := 7) (start₁ := 0) rfl]
  exact BitVec.extractLsb'_eq_self

theorem encodeR_of_fields {w : Word} {f7 : BitVec 7} {f3 : BitVec 3} {op : BitVec 7}
    (hop : w.extractLsb' 0 7 = op) (hf3 : w.extractLsb' 12 3 = f3) (hf7 : w.extractLsb' 25 7 = f7) :
    encodeR f7 (rs2Field w) (rs1Field w) f3 (rdField w) op = w := by
  subst hop hf3 hf7
  rw [encodeR, toBits_rdField, toBits_rs1Field, toBits_rs2Field, BitVec.extractLsb'_append_extractLsb'_eq_extractLsb' (start₂ := 25) (start₁ := 20) rfl,
    BitVec.extractLsb'_append_extractLsb'_eq_extractLsb' (start₂ := 20) (start₁ := 15) rfl,
    BitVec.extractLsb'_append_extractLsb'_eq_extractLsb' (start₂ := 15) (start₁ := 12) rfl,
    BitVec.extractLsb'_append_extractLsb'_eq_extractLsb' (start₂ := 12) (start₁ := 7) rfl, BitVec.extractLsb'_append_extractLsb'_eq_extractLsb' (start₂ := 7) (start₁ := 0) rfl]
  exact BitVec.extractLsb'_eq_self

theorem encodeS_of_fields {w : Word} {f3 : BitVec 3} {op : BitVec 7} (hop : w.extractLsb' 0 7 = op)
    (hf3 : w.extractLsb' 12 3 = f3) : encodeS (immS w) (rs2Field w) (rs1Field w) f3 op = w := by
  subst hop hf3
  have h (start len : Nat) (h : start + len ≤ 12) : (immS w).extractLsb' start len =
      (w.extractLsb' 25 7 ++ w.extractLsb' 7 5 : BitVec 12).extractLsb' start len :=
    extract_signExtend _ h (by omega)
  have h5 : (immS w).extractLsb' 5 7 = w.extractLsb' 25 7 := by
    rw [h _ _ (by omega)]
    simp (disch := omega) only [BitVec.extractLsb'_append_eq_of_le, BitVec.extractLsb'_eq_self, Nat.sub_self]
  have h0 : (immS w).extractLsb' 0 5 = w.extractLsb' 7 5 := by
    rw [h _ _ (by omega)]
    simp (disch := omega) only [BitVec.extractLsb'_append_eq_of_add_le, BitVec.extractLsb'_eq_self]
  rw [encodeS, h5, h0, toBits_rs1Field, toBits_rs2Field, BitVec.extractLsb'_append_extractLsb'_eq_extractLsb' (start₂ := 25) (start₁ := 20) rfl,
    BitVec.extractLsb'_append_extractLsb'_eq_extractLsb' (start₂ := 20) (start₁ := 15) rfl,
    BitVec.extractLsb'_append_extractLsb'_eq_extractLsb' (start₂ := 15) (start₁ := 12) rfl,
    BitVec.extractLsb'_append_extractLsb'_eq_extractLsb' (start₂ := 12) (start₁ := 7) rfl, BitVec.extractLsb'_append_extractLsb'_eq_extractLsb' (start₂ := 7) (start₁ := 0) rfl]
  exact BitVec.extractLsb'_eq_self

theorem encodeB_of_fields {w : Word} {f3 : BitVec 3} {op : BitVec 7} (hop : w.extractLsb' 0 7 = op)
    (hf3 : w.extractLsb' 12 3 = f3) : encodeB (immB w) (rs2Field w) (rs1Field w) f3 op = w := by
  subst hop hf3
  have h (start len : Nat) (h : start + len ≤ 13) : (immB w).extractLsb' start len =
      (w.extractLsb' 31 1 ++ w.extractLsb' 7 1 ++ w.extractLsb' 25 6 ++ w.extractLsb' 8 4 ++ 0#1 :
        BitVec 13).extractLsb' start len := extract_signExtend _ h (by omega)
  have h12 : (immB w).extractLsb' 12 1 = w.extractLsb' 31 1 := by
    rw [h _ _ (by omega)]
    simp (disch := omega) only [BitVec.extractLsb'_append_eq_of_add_le, BitVec.extractLsb'_append_eq_of_le,
      BitVec.extractLsb'_eq_self, Nat.reduceSub, Nat.sub_self]
  have h5 : (immB w).extractLsb' 5 6 = w.extractLsb' 25 6 := by
    rw [h _ _ (by omega)]
    simp (disch := omega) only [BitVec.extractLsb'_append_eq_of_add_le, BitVec.extractLsb'_append_eq_of_le,
      BitVec.extractLsb'_eq_self, Nat.reduceSub, Nat.sub_self]
  have h1 : (immB w).extractLsb' 1 4 = w.extractLsb' 8 4 := by
    rw [h _ _ (by omega)]
    simp (disch := omega) only [BitVec.extractLsb'_append_eq_of_add_le, BitVec.extractLsb'_append_eq_of_le,
      BitVec.extractLsb'_eq_self, Nat.reduceSub, Nat.sub_self]
  have h11 : (immB w).extractLsb' 11 1 = w.extractLsb' 7 1 := by
    rw [h _ _ (by omega)]
    simp (disch := omega) only [BitVec.extractLsb'_append_eq_of_add_le, BitVec.extractLsb'_append_eq_of_le,
      BitVec.extractLsb'_eq_self, Nat.reduceSub, Nat.sub_self]
  rw [encodeB, h12, h5, h1, h11, toBits_rs1Field, toBits_rs2Field, BitVec.extractLsb'_append_extractLsb'_eq_extractLsb' (start₂ := 31) (start₁ := 25) rfl,
    BitVec.extractLsb'_append_extractLsb'_eq_extractLsb' (start₂ := 25) (start₁ := 20) rfl,
    BitVec.extractLsb'_append_extractLsb'_eq_extractLsb' (start₂ := 20) (start₁ := 15) rfl,
    BitVec.extractLsb'_append_extractLsb'_eq_extractLsb' (start₂ := 15) (start₁ := 12) rfl,
    BitVec.extractLsb'_append_extractLsb'_eq_extractLsb' (start₂ := 12) (start₁ := 8) rfl, BitVec.extractLsb'_append_extractLsb'_eq_extractLsb' (start₂ := 8) (start₁ := 7) rfl,
    BitVec.extractLsb'_append_extractLsb'_eq_extractLsb' (start₂ := 7) (start₁ := 0) rfl]
  exact BitVec.extractLsb'_eq_self

theorem encodeSYS_of_fields {w : Word} {const : BitVec 20} {op : BitVec 7} (hop : w.extractLsb' 0 7 = op)
    (hconst : w.extractLsb' 12 20 = const) : encodeSYS const (rdField w) op = w := by
  subst hop hconst
  rw [encodeSYS, toBits_rdField, BitVec.extractLsb'_append_extractLsb'_eq_extractLsb' (start₂ := 12) (start₁ := 7) rfl, BitVec.extractLsb'_append_extractLsb'_eq_extractLsb' (start₂ := 7) (start₁ := 0) rfl]
  exact BitVec.extractLsb'_eq_self

/-! ## What a row's match says of the fields -/

/-- Matching a mask `0x0000007F` fixes the opcode. -/
theorem fields_of_opcodeMask {w p : Word} (h : w &&& 0x0000007F#32 = p) :
    w.extractLsb' 0 7 = p.extractLsb' 0 7 := by
  rw [← h, BitVec.extractLsb'_and]
  exact (BitVec.and_allOnes).symm

/-- Matching a mask `0x0000707F` fixes the opcode and `funct3`. -/
theorem fields_of_funct3Mask {w p : Word} (h : w &&& 0x0000707F#32 = p) :
    w.extractLsb' 0 7 = p.extractLsb' 0 7 ∧ w.extractLsb' 12 3 = p.extractLsb' 12 3 := by
  rw [← h, BitVec.extractLsb'_and, BitVec.extractLsb'_and]
  exact ⟨(BitVec.and_allOnes).symm, (BitVec.and_allOnes).symm⟩

/-- Matching a mask `0xFE00707F` fixes the opcode, `funct3` and `funct7`. -/
theorem fields_of_funct7Mask {w p : Word} (h : w &&& 0xFE00707F#32 = p) :
    w.extractLsb' 0 7 = p.extractLsb' 0 7 ∧ w.extractLsb' 12 3 = p.extractLsb' 12 3 ∧
      w.extractLsb' 25 7 = p.extractLsb' 25 7 := by
  rw [← h, BitVec.extractLsb'_and, BitVec.extractLsb'_and, BitVec.extractLsb'_and]
  exact ⟨(BitVec.and_allOnes).symm, (BitVec.and_allOnes).symm, (BitVec.and_allOnes).symm⟩

/-- Matching a mask `0xFFFFF07F` fixes the opcode and bits 31:12. -/
theorem fields_of_systemMask {w p : Word} (h : w &&& 0xFFFFF07F#32 = p) :
    w.extractLsb' 0 7 = p.extractLsb' 0 7 ∧ w.extractLsb' 12 20 = p.extractLsb' 12 20 := by
  rw [← h, BitVec.extractLsb'_and, BitVec.extractLsb'_and]
  exact ⟨(BitVec.and_allOnes).symm, (BitVec.and_allOnes).symm⟩

/-! ## A decoded immediate is in its format's range -/

theorem toInt_signExtend_bounds {n : Nat} (x : BitVec n) (hn : 1 ≤ n ∧ n ≤ 32) :
    -(2 : Int) ^ (n - 1) ≤ (x.signExtend 32).toInt ∧ (x.signExtend 32).toInt < (2 : Int) ^ (n - 1) := by
  rw [BitVec.toInt_signExtend_of_le hn.2]
  exact ⟨by simpa using BitVec.le_toInt x, by simpa using BitVec.toInt_lt (x := x)⟩

theorem fitsI_signExtend (x : BitVec 12) : fitsI (x.signExtend 32) = true := by
  have h := toInt_signExtend_bounds x (by omega)
  norm_num at h
  rw [fitsI_iff]; omega

/-- A word whose bit 0 is 0 is even. -/
theorem even_of_extract_zero {i : Word} (h : i.extractLsb' 0 1 = 0#1) : i.toNat % 2 = 0 := by
  have := congrArg BitVec.toNat h
  simpa [BitVec.extractLsb'_toNat] using this

theorem fitsB_immB (w : Word) : fitsB (immB w) = true := by
  rw [fitsB_iff]
  have heven : (immB w).toNat % 2 = 0 := even_of_extract_zero (by
    rw [immB, extract_signExtend _ (by omega) (by omega)]
    exact BitVec.extractLsb'_append_eq_right)
  have h := toInt_signExtend_bounds (n := 13) (w.extractLsb' 31 1 ++ w.extractLsb' 7 1 ++ w.extractLsb' 25 6 ++
    w.extractLsb' 8 4 ++ 0#1) (by omega)
  have hmod : (immB w).toInt % 2 = 0 := by rw [BitVec.toInt_eq_toNat_cond]; split <;> omega
  norm_num at h
  have h' : -4096 ≤ (immB w).toInt ∧ (immB w).toInt < 4096 := h
  omega

theorem fitsJ_immJ (w : Word) : fitsJ (immJ w) = true := by
  rw [fitsJ_iff]
  have heven : (immJ w).toNat % 2 = 0 := even_of_extract_zero (by
    rw [immJ, extract_signExtend _ (by omega) (by omega)]
    exact BitVec.extractLsb'_append_eq_right)
  have h := toInt_signExtend_bounds (n := 21) (w.extractLsb' 31 1 ++ w.extractLsb' 12 8 ++ w.extractLsb' 20 1 ++
    w.extractLsb' 21 10 ++ 0#1) (by omega)
  have hmod : (immJ w).toInt % 2 = 0 := by rw [BitVec.toInt_eq_toNat_cond]; split <;> omega
  norm_num at h
  have h' : -1048576 ≤ (immJ w).toInt ∧ (immJ w).toInt < 1048576 := h
  omega

theorem fitsU_immU (w : Word) : fitsU (immU w) = true := by
  have h : (immU w).extractLsb' 0 12 = 0#12 := BitVec.extractLsb'_append_eq_right
  have := congrArg BitVec.toNat h
  simpa [BitVec.extractLsb'_toNat] using this

theorem fitsSH_immSH (w : Word) : fitsSH (immSH w) = true := by
  have := (w.extractLsb' 20 5).isLt
  simp only [decide_eq_true_eq, immSH, BitVec.toNat_setWidth]
  omega

end Sys2Proof
end

