-- ==== Sys2Proof/Laws/PerInstr.lean ====
section
/-! SUPPORT. Facts about each instruction as syntax, one lemma per constructor (spec 30_encoding.md R80). -/

/-- The encoding of an instruction is accepted by a row of the table that, where the instruction is well formed, reads
the instruction back from it. -/
def Sys2Proof.Laws.EncodeSelectsRow.Statement (i : Sys2Proof.Instr) : Prop :=
  ∀ enc, ∃ r ∈ Sys2Proof.decodeTable enc, Sys2Proof.encode enc i &&& r.mask = r.pattern ∧
    (i.wf = true → r.operands (Sys2Proof.encode enc i) = i)

namespace Sys2Proof.Laws.EncodeSelectsRow

open Sys2Proof

theorem lui (rd : Reg) (i : Word) : Statement (.lui rd i) := by
  intro enc
  refine ⟨(decodeTable enc)[0]'(by cases enc <;> decide), List.getElem_mem _, ?_, fun h => ?_⟩
  · change encodeU _ _ _ &&& 0x0000007F#32 = _
    rw [and_opcodeMask, encodeU_opcode]
    rfl
  · change Instr.lui (rdField (encodeU _ _ _)) (immU (encodeU _ _ _)) = _
    rw [encodeU_rd, immU_encodeU h]

theorem auipc (rd : Reg) (i : Word) : Statement (.auipc rd i) := by
  intro enc
  refine ⟨(decodeTable enc)[1]'(by cases enc <;> decide), List.getElem_mem _, ?_, fun h => ?_⟩
  · change encodeU _ _ _ &&& 0x0000007F#32 = _
    rw [and_opcodeMask, encodeU_opcode]
    rfl
  · change Instr.auipc (rdField (encodeU _ _ _)) (immU (encodeU _ _ _)) = _
    rw [encodeU_rd, immU_encodeU h]

theorem jal (rd : Reg) (i : Word) : Statement (.jal rd i) := by
  intro enc
  refine ⟨(decodeTable enc)[2]'(by cases enc <;> decide), List.getElem_mem _, ?_, fun h => ?_⟩
  · change encodeJ _ _ _ &&& 0x0000007F#32 = _
    rw [and_opcodeMask, encodeJ_opcode]
    rfl
  · change Instr.jal (rdField (encodeJ _ _ _)) (immJ (encodeJ _ _ _)) = _
    rw [encodeJ_rd, immJ_encodeJ h]

theorem jalr (rd rs1 : Reg) (i : Word) : Statement (.jalr rd rs1 i) := by
  intro enc
  refine ⟨(decodeTable enc)[3]'(by cases enc <;> decide), List.getElem_mem _, ?_, fun h => ?_⟩
  · change encodeI _ _ _ _ _ &&& 0x0000707F#32 = _
    rw [and_funct3Mask, encodeI_opcode, encodeI_funct3]
    rfl
  · change Instr.jalr (rdField (encodeI _ _ _ _ _)) (rs1Field (encodeI _ _ _ _ _)) (immI (encodeI _ _ _ _ _)) = _
    rw [encodeI_rd, encodeI_rs1, immI_encodeI h]

theorem beq (rs1 rs2 : Reg) (i : Word) : Statement (.beq rs1 rs2 i) := by
  intro enc
  refine ⟨(decodeTable enc)[4]'(by cases enc <;> decide), List.getElem_mem _, ?_, fun h => ?_⟩
  · change encodeB _ _ _ _ _ &&& 0x0000707F#32 = _
    rw [and_funct3Mask, encodeB_opcode, encodeB_funct3]
    rfl
  · change Instr.beq (rs1Field (encodeB _ _ _ _ _)) (rs2Field (encodeB _ _ _ _ _)) (immB (encodeB _ _ _ _ _)) = _
    rw [encodeB_rs1, encodeB_rs2, immB_encodeB h]

theorem bne (rs1 rs2 : Reg) (i : Word) : Statement (.bne rs1 rs2 i) := by
  intro enc
  refine ⟨(decodeTable enc)[5]'(by cases enc <;> decide), List.getElem_mem _, ?_, fun h => ?_⟩
  · change encodeB _ _ _ _ _ &&& 0x0000707F#32 = _
    rw [and_funct3Mask, encodeB_opcode, encodeB_funct3]
    rfl
  · change Instr.bne (rs1Field (encodeB _ _ _ _ _)) (rs2Field (encodeB _ _ _ _ _)) (immB (encodeB _ _ _ _ _)) = _
    rw [encodeB_rs1, encodeB_rs2, immB_encodeB h]

theorem blt (rs1 rs2 : Reg) (i : Word) : Statement (.blt rs1 rs2 i) := by
  intro enc
  refine ⟨(decodeTable enc)[6]'(by cases enc <;> decide), List.getElem_mem _, ?_, fun h => ?_⟩
  · change encodeB _ _ _ _ _ &&& 0x0000707F#32 = _
    rw [and_funct3Mask, encodeB_opcode, encodeB_funct3]
    rfl
  · change Instr.blt (rs1Field (encodeB _ _ _ _ _)) (rs2Field (encodeB _ _ _ _ _)) (immB (encodeB _ _ _ _ _)) = _
    rw [encodeB_rs1, encodeB_rs2, immB_encodeB h]

theorem bge (rs1 rs2 : Reg) (i : Word) : Statement (.bge rs1 rs2 i) := by
  intro enc
  refine ⟨(decodeTable enc)[7]'(by cases enc <;> decide), List.getElem_mem _, ?_, fun h => ?_⟩
  · change encodeB _ _ _ _ _ &&& 0x0000707F#32 = _
    rw [and_funct3Mask, encodeB_opcode, encodeB_funct3]
    rfl
  · change Instr.bge (rs1Field (encodeB _ _ _ _ _)) (rs2Field (encodeB _ _ _ _ _)) (immB (encodeB _ _ _ _ _)) = _
    rw [encodeB_rs1, encodeB_rs2, immB_encodeB h]

theorem bltu (rs1 rs2 : Reg) (i : Word) : Statement (.bltu rs1 rs2 i) := by
  intro enc
  refine ⟨(decodeTable enc)[8]'(by cases enc <;> decide), List.getElem_mem _, ?_, fun h => ?_⟩
  · change encodeB _ _ _ _ _ &&& 0x0000707F#32 = _
    rw [and_funct3Mask, encodeB_opcode, encodeB_funct3]
    rfl
  · change Instr.bltu (rs1Field (encodeB _ _ _ _ _)) (rs2Field (encodeB _ _ _ _ _)) (immB (encodeB _ _ _ _ _)) = _
    rw [encodeB_rs1, encodeB_rs2, immB_encodeB h]

theorem bgeu (rs1 rs2 : Reg) (i : Word) : Statement (.bgeu rs1 rs2 i) := by
  intro enc
  refine ⟨(decodeTable enc)[9]'(by cases enc <;> decide), List.getElem_mem _, ?_, fun h => ?_⟩
  · change encodeB _ _ _ _ _ &&& 0x0000707F#32 = _
    rw [and_funct3Mask, encodeB_opcode, encodeB_funct3]
    rfl
  · change Instr.bgeu (rs1Field (encodeB _ _ _ _ _)) (rs2Field (encodeB _ _ _ _ _)) (immB (encodeB _ _ _ _ _)) = _
    rw [encodeB_rs1, encodeB_rs2, immB_encodeB h]

theorem lb (rd rs1 : Reg) (i : Word) : Statement (.lb rd rs1 i) := by
  intro enc
  refine ⟨(decodeTable enc)[10]'(by cases enc <;> decide), List.getElem_mem _, ?_, fun h => ?_⟩
  · change encodeI _ _ _ _ _ &&& 0x0000707F#32 = _
    rw [and_funct3Mask, encodeI_opcode, encodeI_funct3]
    rfl
  · change Instr.lb (rdField (encodeI _ _ _ _ _)) (rs1Field (encodeI _ _ _ _ _)) (immI (encodeI _ _ _ _ _)) = _
    rw [encodeI_rd, encodeI_rs1, immI_encodeI h]

theorem lh (rd rs1 : Reg) (i : Word) : Statement (.lh rd rs1 i) := by
  intro enc
  refine ⟨(decodeTable enc)[11]'(by cases enc <;> decide), List.getElem_mem _, ?_, fun h => ?_⟩
  · change encodeI _ _ _ _ _ &&& 0x0000707F#32 = _
    rw [and_funct3Mask, encodeI_opcode, encodeI_funct3]
    rfl
  · change Instr.lh (rdField (encodeI _ _ _ _ _)) (rs1Field (encodeI _ _ _ _ _)) (immI (encodeI _ _ _ _ _)) = _
    rw [encodeI_rd, encodeI_rs1, immI_encodeI h]

theorem lw (rd rs1 : Reg) (i : Word) : Statement (.lw rd rs1 i) := by
  intro enc
  refine ⟨(decodeTable enc)[12]'(by cases enc <;> decide), List.getElem_mem _, ?_, fun h => ?_⟩
  · change encodeI _ _ _ _ _ &&& 0x0000707F#32 = _
    rw [and_funct3Mask, encodeI_opcode, encodeI_funct3]
    rfl
  · change Instr.lw (rdField (encodeI _ _ _ _ _)) (rs1Field (encodeI _ _ _ _ _)) (immI (encodeI _ _ _ _ _)) = _
    rw [encodeI_rd, encodeI_rs1, immI_encodeI h]

theorem lbu (rd rs1 : Reg) (i : Word) : Statement (.lbu rd rs1 i) := by
  intro enc
  refine ⟨(decodeTable enc)[13]'(by cases enc <;> decide), List.getElem_mem _, ?_, fun h => ?_⟩
  · cases enc <;>
    · change encodeI _ _ _ _ _ &&& 0x0000707F#32 = _
      rw [and_funct3Mask, encodeI_opcode, encodeI_funct3]
      rfl
  · change Instr.lbu (rdField (encodeI _ _ _ _ _)) (rs1Field (encodeI _ _ _ _ _)) (immI (encodeI _ _ _ _ _)) = _
    rw [encodeI_rd, encodeI_rs1, immI_encodeI h]

theorem lhu (rd rs1 : Reg) (i : Word) : Statement (.lhu rd rs1 i) := by
  intro enc
  refine ⟨(decodeTable enc)[14]'(by cases enc <;> decide), List.getElem_mem _, ?_, fun h => ?_⟩
  · cases enc <;>
    · change encodeI _ _ _ _ _ &&& 0x0000707F#32 = _
      rw [and_funct3Mask, encodeI_opcode, encodeI_funct3]
      rfl
  · change Instr.lhu (rdField (encodeI _ _ _ _ _)) (rs1Field (encodeI _ _ _ _ _)) (immI (encodeI _ _ _ _ _)) = _
    rw [encodeI_rd, encodeI_rs1, immI_encodeI h]

theorem sb (rs1 rs2 : Reg) (i : Word) : Statement (.sb rs1 rs2 i) := by
  intro enc
  refine ⟨(decodeTable enc)[15]'(by cases enc <;> decide), List.getElem_mem _, ?_, fun h => ?_⟩
  · change encodeS _ _ _ _ _ &&& 0x0000707F#32 = _
    rw [and_funct3Mask, encodeS_opcode, encodeS_funct3]
    rfl
  · change Instr.sb (rs1Field (encodeS _ _ _ _ _)) (rs2Field (encodeS _ _ _ _ _)) (immS (encodeS _ _ _ _ _)) = _
    rw [encodeS_rs1, encodeS_rs2, immS_encodeS h]

theorem sh (rs1 rs2 : Reg) (i : Word) : Statement (.sh rs1 rs2 i) := by
  intro enc
  refine ⟨(decodeTable enc)[16]'(by cases enc <;> decide), List.getElem_mem _, ?_, fun h => ?_⟩
  · change encodeS _ _ _ _ _ &&& 0x0000707F#32 = _
    rw [and_funct3Mask, encodeS_opcode, encodeS_funct3]
    rfl
  · change Instr.sh (rs1Field (encodeS _ _ _ _ _)) (rs2Field (encodeS _ _ _ _ _)) (immS (encodeS _ _ _ _ _)) = _
    rw [encodeS_rs1, encodeS_rs2, immS_encodeS h]

theorem sw (rs1 rs2 : Reg) (i : Word) : Statement (.sw rs1 rs2 i) := by
  intro enc
  refine ⟨(decodeTable enc)[17]'(by cases enc <;> decide), List.getElem_mem _, ?_, fun h => ?_⟩
  · change encodeS _ _ _ _ _ &&& 0x0000707F#32 = _
    rw [and_funct3Mask, encodeS_opcode, encodeS_funct3]
    rfl
  · change Instr.sw (rs1Field (encodeS _ _ _ _ _)) (rs2Field (encodeS _ _ _ _ _)) (immS (encodeS _ _ _ _ _)) = _
    rw [encodeS_rs1, encodeS_rs2, immS_encodeS h]

theorem addi (rd rs1 : Reg) (i : Word) : Statement (.addi rd rs1 i) := by
  intro enc
  refine ⟨(decodeTable enc)[18]'(by cases enc <;> decide), List.getElem_mem _, ?_, fun h => ?_⟩
  · change encodeI _ _ _ _ _ &&& 0x0000707F#32 = _
    rw [and_funct3Mask, encodeI_opcode, encodeI_funct3]
    rfl
  · change Instr.addi (rdField (encodeI _ _ _ _ _)) (rs1Field (encodeI _ _ _ _ _)) (immI (encodeI _ _ _ _ _)) = _
    rw [encodeI_rd, encodeI_rs1, immI_encodeI h]

theorem slli (rd rs1 : Reg) (i : Word) : Statement (.slli rd rs1 i) := by
  intro enc
  refine ⟨(decodeTable enc)[19]'(by cases enc <;> decide), List.getElem_mem _, ?_, fun h => ?_⟩
  · change encodeI _ _ _ _ _ &&& 0x0000707F#32 = _
    rw [and_funct3Mask, encodeI_opcode, encodeI_funct3]
    rfl
  · change Instr.slli (rdField (encodeI _ _ _ _ _)) (rs1Field (encodeI _ _ _ _ _)) (immI (encodeI _ _ _ _ _)) = _
    rw [encodeI_rd, encodeI_rs1, immI_encodeI h]

theorem slti (rd rs1 : Reg) (i : Word) : Statement (.slti rd rs1 i) := by
  intro enc
  refine ⟨(decodeTable enc)[20]'(by cases enc <;> decide), List.getElem_mem _, ?_, fun h => ?_⟩
  · change encodeI _ _ _ _ _ &&& 0x0000707F#32 = _
    rw [and_funct3Mask, encodeI_opcode, encodeI_funct3]
    rfl
  · change Instr.slti (rdField (encodeI _ _ _ _ _)) (rs1Field (encodeI _ _ _ _ _)) (immI (encodeI _ _ _ _ _)) = _
    rw [encodeI_rd, encodeI_rs1, immI_encodeI h]

theorem sltui (rd rs1 : Reg) (i : Word) : Statement (.sltui rd rs1 i) := by
  intro enc
  refine ⟨(decodeTable enc)[21]'(by cases enc <;> decide), List.getElem_mem _, ?_, fun h => ?_⟩
  · change encodeI _ _ _ _ _ &&& 0x0000707F#32 = _
    rw [and_funct3Mask, encodeI_opcode, encodeI_funct3]
    rfl
  · change Instr.sltui (rdField (encodeI _ _ _ _ _)) (rs1Field (encodeI _ _ _ _ _)) (immI (encodeI _ _ _ _ _)) = _
    rw [encodeI_rd, encodeI_rs1, immI_encodeI h]

theorem xori (rd rs1 : Reg) (i : Word) : Statement (.xori rd rs1 i) := by
  intro enc
  refine ⟨(decodeTable enc)[22]'(by cases enc <;> decide), List.getElem_mem _, ?_, fun h => ?_⟩
  · change encodeI _ _ _ _ _ &&& 0x0000707F#32 = _
    rw [and_funct3Mask, encodeI_opcode, encodeI_funct3]
    rfl
  · change Instr.xori (rdField (encodeI _ _ _ _ _)) (rs1Field (encodeI _ _ _ _ _)) (immI (encodeI _ _ _ _ _)) = _
    rw [encodeI_rd, encodeI_rs1, immI_encodeI h]

theorem srli (rd rs1 : Reg) (i : Word) : Statement (.srli rd rs1 i) := by
  intro enc
  refine ⟨(decodeTable enc)[23]'(by cases enc <;> decide), List.getElem_mem _, ?_, fun h => ?_⟩
  · change encodeISH _ _ _ _ _ _ &&& 0xFE00707F#32 = _
    rw [and_funct7Mask, encodeISH_opcode, encodeISH_funct3, encodeISH_funct7]
    rfl
  · change Instr.srli (rdField (encodeISH _ _ _ _ _ _)) (rs1Field (encodeISH _ _ _ _ _ _)) (immSH (encodeISH _ _ _ _ _ _)) = _
    rw [encodeISH_rd, encodeISH_rs1, immSH_encodeISH h]

theorem srai (rd rs1 : Reg) (i : Word) : Statement (.srai rd rs1 i) := by
  intro enc
  refine ⟨(decodeTable enc)[24]'(by cases enc <;> decide), List.getElem_mem _, ?_, fun h => ?_⟩
  · change encodeISH _ _ _ _ _ _ &&& 0xFE00707F#32 = _
    rw [and_funct7Mask, encodeISH_opcode, encodeISH_funct3, encodeISH_funct7]
    rfl
  · change Instr.srai (rdField (encodeISH _ _ _ _ _ _)) (rs1Field (encodeISH _ _ _ _ _ _)) (immSH (encodeISH _ _ _ _ _ _)) = _
    rw [encodeISH_rd, encodeISH_rs1, immSH_encodeISH h]

theorem ori (rd rs1 : Reg) (i : Word) : Statement (.ori rd rs1 i) := by
  intro enc
  refine ⟨(decodeTable enc)[25]'(by cases enc <;> decide), List.getElem_mem _, ?_, fun h => ?_⟩
  · change encodeI _ _ _ _ _ &&& 0x0000707F#32 = _
    rw [and_funct3Mask, encodeI_opcode, encodeI_funct3]
    rfl
  · change Instr.ori (rdField (encodeI _ _ _ _ _)) (rs1Field (encodeI _ _ _ _ _)) (immI (encodeI _ _ _ _ _)) = _
    rw [encodeI_rd, encodeI_rs1, immI_encodeI h]

theorem andi (rd rs1 : Reg) (i : Word) : Statement (.andi rd rs1 i) := by
  intro enc
  refine ⟨(decodeTable enc)[26]'(by cases enc <;> decide), List.getElem_mem _, ?_, fun h => ?_⟩
  · change encodeI _ _ _ _ _ &&& 0x0000707F#32 = _
    rw [and_funct3Mask, encodeI_opcode, encodeI_funct3]
    rfl
  · change Instr.andi (rdField (encodeI _ _ _ _ _)) (rs1Field (encodeI _ _ _ _ _)) (immI (encodeI _ _ _ _ _)) = _
    rw [encodeI_rd, encodeI_rs1, immI_encodeI h]

theorem add (rd rs1 rs2 : Reg) : Statement (.add rd rs1 rs2) := by
  intro enc
  refine ⟨(decodeTable enc)[27]'(by cases enc <;> decide), List.getElem_mem _, ?_, fun h => ?_⟩
  · change encodeR _ _ _ _ _ _ &&& 0xFE00707F#32 = _
    rw [and_funct7Mask, encodeR_opcode, encodeR_funct3, encodeR_funct7]
    rfl
  · change Instr.add (rdField (encodeR _ _ _ _ _ _)) (rs1Field (encodeR _ _ _ _ _ _)) (rs2Field (encodeR _ _ _ _ _ _)) = _
    rw [encodeR_rd, encodeR_rs1, encodeR_rs2]

theorem sub (rd rs1 rs2 : Reg) : Statement (.sub rd rs1 rs2) := by
  intro enc
  refine ⟨(decodeTable enc)[28]'(by cases enc <;> decide), List.getElem_mem _, ?_, fun h => ?_⟩
  · change encodeR _ _ _ _ _ _ &&& 0xFE00707F#32 = _
    rw [and_funct7Mask, encodeR_opcode, encodeR_funct3, encodeR_funct7]
    rfl
  · change Instr.sub (rdField (encodeR _ _ _ _ _ _)) (rs1Field (encodeR _ _ _ _ _ _)) (rs2Field (encodeR _ _ _ _ _ _)) = _
    rw [encodeR_rd, encodeR_rs1, encodeR_rs2]

theorem sll (rd rs1 rs2 : Reg) : Statement (.sll rd rs1 rs2) := by
  intro enc
  refine ⟨(decodeTable enc)[29]'(by cases enc <;> decide), List.getElem_mem _, ?_, fun h => ?_⟩
  · change encodeR _ _ _ _ _ _ &&& 0xFE00707F#32 = _
    rw [and_funct7Mask, encodeR_opcode, encodeR_funct3, encodeR_funct7]
    rfl
  · change Instr.sll (rdField (encodeR _ _ _ _ _ _)) (rs1Field (encodeR _ _ _ _ _ _)) (rs2Field (encodeR _ _ _ _ _ _)) = _
    rw [encodeR_rd, encodeR_rs1, encodeR_rs2]

theorem slt (rd rs1 rs2 : Reg) : Statement (.slt rd rs1 rs2) := by
  intro enc
  refine ⟨(decodeTable enc)[30]'(by cases enc <;> decide), List.getElem_mem _, ?_, fun h => ?_⟩
  · change encodeR _ _ _ _ _ _ &&& 0xFE00707F#32 = _
    rw [and_funct7Mask, encodeR_opcode, encodeR_funct3, encodeR_funct7]
    rfl
  · change Instr.slt (rdField (encodeR _ _ _ _ _ _)) (rs1Field (encodeR _ _ _ _ _ _)) (rs2Field (encodeR _ _ _ _ _ _)) = _
    rw [encodeR_rd, encodeR_rs1, encodeR_rs2]

theorem sltu (rd rs1 rs2 : Reg) : Statement (.sltu rd rs1 rs2) := by
  intro enc
  refine ⟨(decodeTable enc)[31]'(by cases enc <;> decide), List.getElem_mem _, ?_, fun h => ?_⟩
  · change encodeR _ _ _ _ _ _ &&& 0xFE00707F#32 = _
    rw [and_funct7Mask, encodeR_opcode, encodeR_funct3, encodeR_funct7]
    rfl
  · change Instr.sltu (rdField (encodeR _ _ _ _ _ _)) (rs1Field (encodeR _ _ _ _ _ _)) (rs2Field (encodeR _ _ _ _ _ _)) = _
    rw [encodeR_rd, encodeR_rs1, encodeR_rs2]

theorem xor (rd rs1 rs2 : Reg) : Statement (.xor rd rs1 rs2) := by
  intro enc
  refine ⟨(decodeTable enc)[32]'(by cases enc <;> decide), List.getElem_mem _, ?_, fun h => ?_⟩
  · change encodeR _ _ _ _ _ _ &&& 0xFE00707F#32 = _
    rw [and_funct7Mask, encodeR_opcode, encodeR_funct3, encodeR_funct7]
    rfl
  · change Instr.xor (rdField (encodeR _ _ _ _ _ _)) (rs1Field (encodeR _ _ _ _ _ _)) (rs2Field (encodeR _ _ _ _ _ _)) = _
    rw [encodeR_rd, encodeR_rs1, encodeR_rs2]

theorem srl (rd rs1 rs2 : Reg) : Statement (.srl rd rs1 rs2) := by
  intro enc
  refine ⟨(decodeTable enc)[33]'(by cases enc <;> decide), List.getElem_mem _, ?_, fun h => ?_⟩
  · change encodeR _ _ _ _ _ _ &&& 0xFE00707F#32 = _
    rw [and_funct7Mask, encodeR_opcode, encodeR_funct3, encodeR_funct7]
    rfl
  · change Instr.srl (rdField (encodeR _ _ _ _ _ _)) (rs1Field (encodeR _ _ _ _ _ _)) (rs2Field (encodeR _ _ _ _ _ _)) = _
    rw [encodeR_rd, encodeR_rs1, encodeR_rs2]

theorem sra (rd rs1 rs2 : Reg) : Statement (.sra rd rs1 rs2) := by
  intro enc
  refine ⟨(decodeTable enc)[34]'(by cases enc <;> decide), List.getElem_mem _, ?_, fun h => ?_⟩
  · change encodeR _ _ _ _ _ _ &&& 0xFE00707F#32 = _
    rw [and_funct7Mask, encodeR_opcode, encodeR_funct3, encodeR_funct7]
    rfl
  · change Instr.sra (rdField (encodeR _ _ _ _ _ _)) (rs1Field (encodeR _ _ _ _ _ _)) (rs2Field (encodeR _ _ _ _ _ _)) = _
    rw [encodeR_rd, encodeR_rs1, encodeR_rs2]

theorem or (rd rs1 rs2 : Reg) : Statement (.or rd rs1 rs2) := by
  intro enc
  refine ⟨(decodeTable enc)[35]'(by cases enc <;> decide), List.getElem_mem _, ?_, fun h => ?_⟩
  · change encodeR _ _ _ _ _ _ &&& 0xFE00707F#32 = _
    rw [and_funct7Mask, encodeR_opcode, encodeR_funct3, encodeR_funct7]
    rfl
  · change Instr.or (rdField (encodeR _ _ _ _ _ _)) (rs1Field (encodeR _ _ _ _ _ _)) (rs2Field (encodeR _ _ _ _ _ _)) = _
    rw [encodeR_rd, encodeR_rs1, encodeR_rs2]

theorem and (rd rs1 rs2 : Reg) : Statement (.and rd rs1 rs2) := by
  intro enc
  refine ⟨(decodeTable enc)[36]'(by cases enc <;> decide), List.getElem_mem _, ?_, fun h => ?_⟩
  · change encodeR _ _ _ _ _ _ &&& 0xFE00707F#32 = _
    rw [and_funct7Mask, encodeR_opcode, encodeR_funct3, encodeR_funct7]
    rfl
  · change Instr.and (rdField (encodeR _ _ _ _ _ _)) (rs1Field (encodeR _ _ _ _ _ _)) (rs2Field (encodeR _ _ _ _ _ _)) = _
    rw [encodeR_rd, encodeR_rs1, encodeR_rs2]

theorem fence : Statement (.fence) := by
  intro enc
  refine ⟨(decodeTable enc)[37]'(by cases enc <;> decide), List.getElem_mem _, ?_, fun h => ?_⟩
  · cases enc <;> decide
  · rfl

theorem ecall (rd : Reg) : Statement (.ecall rd) := by
  intro enc
  refine ⟨(decodeTable enc)[38]'(by cases enc <;> decide), List.getElem_mem _, ?_, fun h => ?_⟩
  · change encodeSYS _ _ _ &&& 0xFFFFF07F#32 = _
    rw [and_systemMask, encodeSYS_opcode, encodeSYS_const]
    rfl
  · change Instr.ecall (rdField (encodeSYS _ _ _)) = _
    rw [encodeSYS_rd]

theorem ebreak (rd : Reg) : Statement (.ebreak rd) := by
  intro enc
  refine ⟨(decodeTable enc)[39]'(by cases enc <;> decide), List.getElem_mem _, ?_, fun h => ?_⟩
  · change encodeSYS _ _ _ &&& 0xFFFFF07F#32 = _
    rw [and_systemMask, encodeSYS_opcode, encodeSYS_const]
    rfl
  · change Instr.ebreak (rdField (encodeSYS _ _ _)) = _
    rw [encodeSYS_rd]

theorem unimp : Statement (.unimp) := by
  intro enc
  refine ⟨(decodeTable enc)[40]'(by cases enc <;> decide), List.getElem_mem _, ?_, fun h => ?_⟩
  · cases enc <;> decide
  · rfl

end Sys2Proof.Laws.EncodeSelectsRow
end

