-- ==== Sys2Proof/Laws/Exec.lean ====
section
/-! SUPPORT. What each shared operation can do, said once, and from that what an instruction can do: `exec_next_cases`
is the inversion lemma every claim about next states cites, the `_eq_error` and `_eq_fault` lemmas say when an access and
the end of an instruction fault. -/

namespace Sys2Proof.Machine

open Sys2Proof

/-! ## Checked accesses (20_memory.md R46, R47, R48) -/

theorem checkAccess_eq_none (s : State) (m : Word → Fault) (n : Nat) (addr : Word) :
    s.checkAccess m n addr = none ↔ addr.toNat % n = 0 ∧ addr.toNat < s.params.memSize := by
  unfold State.checkAccess
  split
  · simp_all
  · split
    · simp_all
    · simp_all

/-- Alignment is tested before existence (R263, D15). -/
theorem checkAccess_eq_some (s : State) (m : Word → Fault) (n : Nat) (addr : Word) (f : Fault) :
    s.checkAccess m n addr = some f ↔
      (addr.toNat % n ≠ 0 ∧ f = m addr) ∨
      (addr.toNat % n = 0 ∧ s.params.memSize ≤ addr.toNat ∧ f = .accessOutOfRange addr) := by
  unfold State.checkAccess
  split
  · simp_all [eq_comm]
  · split
    · simp_all [eq_comm]
    · simp_all

theorem loadByte_ok {s : State} {a : Word} (h : a.toNat < s.params.memSize) :
    s.loadByte a = .ok (readByte s.mem a.toNat) := by
  simp only [State.loadByte, (checkAccess_eq_none s _ 1 a).mpr ⟨Nat.mod_one _, h⟩]

theorem loadHalf_ok {s : State} {a : Word} (ha : a.toNat % 2 = 0) (h : a.toNat < s.params.memSize) :
    s.loadHalf a = .ok (readHalf s.mem a.toNat) := by
  simp only [State.loadHalf, (checkAccess_eq_none s _ 2 a).mpr ⟨ha, h⟩]

theorem loadWord_ok {s : State} {a : Word} (ha : a.toNat % 4 = 0) (h : a.toNat < s.params.memSize) :
    s.loadWord a = .ok (readWord s.mem a.toNat) := by
  simp only [State.loadWord, (checkAccess_eq_none s _ 4 a).mpr ⟨ha, h⟩]

theorem storeByte_ok {s : State} {a : Word} (h : a.toNat < s.params.memSize) (v : Byte) :
    s.storeByte a v = .ok (s.setMem (writeByte s.mem a.toNat v)) := by
  simp only [State.storeByte, (checkAccess_eq_none s _ 1 a).mpr ⟨Nat.mod_one _, h⟩]

theorem storeHalf_ok {s : State} {a : Word} (ha : a.toNat % 2 = 0) (h : a.toNat < s.params.memSize) (v : BitVec 16) :
    s.storeHalf a v = .ok (s.setMem (writeHalf s.mem a.toNat v)) := by
  simp only [State.storeHalf, (checkAccess_eq_none s _ 2 a).mpr ⟨ha, h⟩]

theorem storeWord_ok {s : State} {a : Word} (ha : a.toNat % 4 = 0) (h : a.toNat < s.params.memSize) (v : Word) :
    s.storeWord a v = .ok (s.setMem (writeWord s.mem a.toNat v)) := by
  simp only [State.storeWord, (checkAccess_eq_none s _ 4 a).mpr ⟨ha, h⟩]

theorem fetch_ok {s : State} (ha : s.pc.toNat % 4 = 0) (h : s.pc.toNat < s.params.memSize) :
    s.fetch = .ok (readWord s.mem s.pc.toNat) := by
  simp only [State.fetch, (checkAccess_eq_none s _ 4 s.pc).mpr ⟨ha, h⟩]

theorem loadByte_eq_error {s : State} {a : Word} {f : Fault} :
    s.loadByte a = .error f ↔ s.checkAccess .misalignedLoad 1 a = some f := by
  unfold State.loadByte; split <;> simp_all

theorem loadHalf_eq_error {s : State} {a : Word} {f : Fault} :
    s.loadHalf a = .error f ↔ s.checkAccess .misalignedLoad 2 a = some f := by
  unfold State.loadHalf; split <;> simp_all

theorem loadWord_eq_error {s : State} {a : Word} {f : Fault} :
    s.loadWord a = .error f ↔ s.checkAccess .misalignedLoad 4 a = some f := by
  unfold State.loadWord; split <;> simp_all

theorem storeByte_eq_error {s : State} {a : Word} {v : Byte} {f : Fault} :
    s.storeByte a v = .error f ↔ s.checkAccess .misalignedStore 1 a = some f := by
  unfold State.storeByte; split <;> simp_all

theorem storeHalf_eq_error {s : State} {a : Word} {v : BitVec 16} {f : Fault} :
    s.storeHalf a v = .error f ↔ s.checkAccess .misalignedStore 2 a = some f := by
  unfold State.storeHalf; split <;> simp_all

theorem storeWord_eq_error {s : State} {a : Word} {v : Word} {f : Fault} :
    s.storeWord a v = .error f ↔ s.checkAccess .misalignedStore 4 a = some f := by
  unfold State.storeWord; split <;> simp_all

/-- All a fetch can answer (R48). -/
theorem fetch_cases (s : State) :
    (s.pc.toNat % 4 ≠ 0 ∧ s.fetch = .error (.misalignedFetch s.pc)) ∨
    (s.pc.toNat % 4 = 0 ∧ s.params.memSize ≤ s.pc.toNat ∧ s.fetch = .error (.accessOutOfRange s.pc)) ∨
    (s.pc.toNat % 4 = 0 ∧ s.pc.toNat < s.params.memSize ∧ s.fetch = .ok (readWord s.mem s.pc.toNat)) := by
  by_cases ha : s.pc.toNat % 4 = 0
  · by_cases h : s.pc.toNat < s.params.memSize
    · exact .inr (.inr ⟨ha, h, fetch_ok ha h⟩)
    · refine .inr (.inl ⟨ha, by omega, ?_⟩)
      simp only [State.fetch, (checkAccess_eq_some s .misalignedFetch 4 s.pc _).mpr (.inr ⟨ha, by omega, rfl⟩)]
  · refine .inl ⟨ha, ?_⟩
    simp only [State.fetch, (checkAccess_eq_some s .misalignedFetch 4 s.pc _).mpr (.inl ⟨ha, rfl⟩)]

/-! ## How an instruction ends -/

theorem writeReg_writesRegister (s : State) (rd : Reg) (v next : Word) :
    WritesRegister s ((s.writeReg rd v).setPc next) rd v next where
  dest := by simp [readReg_writeReg_self]
  others := fun r hr => by simp [readReg_writeReg_of_ne s v hr]
  pc := rfl
  memory := fun a => by simp
  input := by simp
  params := by simp
  answers := by simp
  draws := by simp

theorem finish_eq (s : State) (rd : Reg) (v : Word) :
    s.finish rd v = .next ((s.writeReg rd v).setPc (s.pc + 4#32)) := by
  simp [State.finish, State.advance]

theorem finish_writesRegister (s : State) (rd : Reg) (v : Word) :
    ∃ t, s.finish rd v = .next t ∧ WritesRegister s t rd v (s.pc + 4#32) :=
  ⟨_, finish_eq s rd v, writeReg_writesRegister s rd v _⟩

theorem jump_writesRegister (s : State) (rd : Reg) (target : Word) :
    ∃ t, s.jump rd target = .next t ∧ WritesRegister s t rd (s.pc + 4#32) target :=
  ⟨_, rfl, writeReg_writesRegister s rd _ _⟩

theorem setPc_onlyMovesPc (s : State) (next : Word) : OnlyMovesPc s (s.setPc next) next where
  regs := fun _ => rfl
  pc := rfl
  memory := fun _ => rfl
  input := rfl
  params := rfl
  answers := rfl
  draws := rfl

theorem branch_eq (s : State) (taken : Bool) (i : Word) :
    s.branch taken i = .next (s.setPc (if taken then s.pc + i else s.pc + 4#32)) := by
  cases taken <;> rfl

theorem branch_onlyMovesPc (s : State) (taken : Bool) (i : Word) :
    ∃ t, s.branch taken i = .next t ∧ OnlyMovesPc s t (if taken then s.pc + i else s.pc + 4#32) :=
  ⟨_, branch_eq s taken i, setPc_onlyMovesPc s _⟩

theorem finishLoad_eq_fault {s : State} {rd : Reg} {e : Except Fault Word} {f : Fault} :
    s.finishLoad rd e = .fault f ↔ e = .error f := by
  cases e <;> simp [State.finishLoad, raise, State.finish]

theorem finishStore_eq_fault {e : Except Fault State} {f : Fault} : finishStore e = .fault f ↔ e = .error f := by
  cases e <;> simp [finishStore, raise]

theorem writeBytes_storesBytes {s : State} (hm : s.mem.wf) (a : Nat) (l : List Byte) :
    StoresBytes s (s.setMem (writeBytes s.mem a l)).advance a l where
  stored := fun k hk => readByte_writeBytes_stored hm l a k hk
  outside := fun x hx => readByte_writeBytes_outside hm l a x hx
  regs := fun _ => rfl
  pc := rfl
  input := rfl
  params := rfl
  answers := rfl
  draws := rfl

/-! ## The system-call environment (48_system.md R246) -/

/-- All a system call can answer: it faults where the answer it takes refuses, else it applies that answer and advances. -/
theorem sysCall_cases (s : State) (call : SystemCall) (rd : Reg) :
    (∃ reason, (s.takeAnswer call rd).1 = .refuse reason ∧
      s.sysCall call rd = .fault (.environmentFault s.pc reason)) ∨
    (∃ t, (s.takeAnswer call rd).2.applyAnswer rd (s.takeAnswer call rd).1 = .ok t ∧
      s.sysCall call rd = .next t.advance) := by
  unfold State.sysCall raise
  cases h : (s.takeAnswer call rd).1 with
  | refuse reason => exact .inl ⟨reason, rfl, rfl⟩
  | registerOnly value consumed => exact .inr ⟨_, rfl, rfl⟩
  | havoc regs mem input => exact .inr ⟨_, rfl, rfl⟩

/-- A system call faults exactly where the answer it takes refuses. -/
theorem sysCall_eq_fault {s : State} {call : SystemCall} {rd : Reg} {f : Fault} :
    s.sysCall call rd = .fault f ↔
      ∃ reason, (s.takeAnswer call rd).1 = .refuse reason ∧ f = .environmentFault s.pc reason := by
  unfold State.sysCall raise
  cases h : (s.takeAnswer call rd).1 <;> simp [State.applyAnswer, eq_comm]

/-- What no answer changes: the pc, the parameters, the domain and the form of memory (R246), and the answers still to
come. -/
theorem applyAnswer_ok {s t : State} {rd : Reg} {a : EnvAnswer} (h : s.applyAnswer rd a = .ok t) :
    t.pc = s.pc ∧ t.params = s.params ∧ (s.mem.wf → t.mem.wf) ∧
      (s.mem.within s.params.memSize → t.mem.within s.params.memSize) ∧ t.answers = s.answers ∧ t.draws = s.draws := by
  cases a with
  | refuse reason => simp [State.applyAnswer] at h
  | registerOnly value consumed =>
    simp only [State.applyAnswer, Except.ok.injEq] at h
    subst h
    simp
  | havoc regs mem input =>
    simp only [State.applyAnswer, Except.ok.injEq] at h
    subst h
    exact ⟨by simp, by simp, fun hm => writeCells_wf _ _ hm, fun hm => writeCells_within _ _ hm, by simp, by simp⟩

/-! ## What an instruction can do -/

theorem finishLoad_cases {s : State} {rd : Reg} {e : Except Fault Word} :
    (∃ f, e = .error f ∧ s.finishLoad rd e = .fault f) ∨
    (∃ v, e = .ok v ∧ s.finishLoad rd e = .next ((s.writeReg rd v).setPc (s.pc + 4#32))) := by
  cases e with
  | error f => exact .inl ⟨f, rfl, rfl⟩
  | ok v => exact .inr ⟨v, rfl, finish_eq s rd v⟩

/-- What an instruction that gives a next state did: wrote its destination register, or only moved the pc, or stored
1, 2 or 4 aligned existing bytes, or took an answer of the environment. The pc is `pc + 4` unless the instruction sets it. -/
theorem exec_next_cases {i : Instr} {s t : State} (h : exec i s = .next t) :
    (∃ rd v next, i.dest = some rd ∧ i.isSystemCall = false ∧ i.isStore = false ∧
      (i.setsPc = false → next = s.pc + 4#32) ∧ t = (s.writeReg rd v).setPc next) ∨
    (∃ next, i.dest = none ∧ i.isSystemCall = false ∧ i.isStore = false ∧
      (i.setsPc = false → next = s.pc + 4#32) ∧ t = s.setPc next) ∨
    (∃ (a : Word) (l : List Byte), i.dest = none ∧ i.isSystemCall = false ∧ i.isStore = true ∧ i.setsPc = false ∧
      (l.length = 1 ∨ l.length = 2 ∨ l.length = 4) ∧ a.toNat % l.length = 0 ∧ a.toNat < s.params.memSize ∧
      t = (s.setMem (writeBytes s.mem a.toNat l)).advance) ∨
    (∃ rd call u, i.dest = some rd ∧ i.isSystemCall = true ∧ i.isStore = false ∧ i.setsPc = false ∧
      (s.takeAnswer call rd).2.applyAnswer rd (s.takeAnswer call rd).1 = .ok u ∧ t = u.advance) := by
  have load {rd : Reg} {e : Except Fault Word} (hd : i.dest = some rd) (hs : i.isSystemCall = false)
      (hst : i.isStore = false) (he : s.finishLoad rd e = .next t) :
      ∃ rd v next, i.dest = some rd ∧ i.isSystemCall = false ∧ i.isStore = false ∧
      (i.setsPc = false → next = s.pc + 4#32) ∧ t = (s.writeReg rd v).setPc next := by
    obtain ⟨f, -, hf⟩ | ⟨v, -, hv⟩ := finishLoad_cases (s := s) (rd := rd) (e := e)
    · rw [hf] at he; cases he
    · rw [hv] at he; cases he
      exact ⟨rd, v, _, hd, hs, hst, fun _ => rfl, rfl⟩
  have sys {rd : Reg} {call : SystemCall} (hd : i.dest = some rd) (hs : i.isSystemCall = true)
      (hst : i.isStore = false) (hpc : i.setsPc = false) (he : s.sysCall call rd = .next t) :
      ∃ rd call u, i.dest = some rd ∧ i.isSystemCall = true ∧ i.isStore = false ∧ i.setsPc = false ∧
      (s.takeAnswer call rd).2.applyAnswer rd (s.takeAnswer call rd).1 = .ok u ∧ t = u.advance := by
    obtain ⟨reason, -, hf⟩ | ⟨u, hu, hn⟩ := sysCall_cases s call rd
    · rw [hf] at he; cases he
    · rw [hn] at he; cases he
      exact ⟨rd, call, u, hd, hs, hst, hpc, hu, rfl⟩
  cases i with
  | lui rd i | auipc rd i =>
    simp only [exec, execLui, execAuipc, finish_eq] at h
    cases h; exact .inl ⟨_, _, _, rfl, rfl, rfl, fun _ => rfl, rfl⟩
  | add rd rs1 rs2 | sub rd rs1 rs2 | slt rd rs1 rs2 | sltu rd rs1 rs2 | sll rd rs1 rs2 | srl rd rs1 rs2
  | sra rd rs1 rs2 | xor rd rs1 rs2 | and rd rs1 rs2 | or rd rs1 rs2 =>
    simp only [exec, execAdd, execSub, execSlt, execSltu, execSll, execSrl, execSra, execXor, execAnd, execOr,
      finish_eq] at h
    cases h; exact .inl ⟨_, _, _, rfl, rfl, rfl, fun _ => rfl, rfl⟩
  | addi rd rs1 i | slti rd rs1 i | sltui rd rs1 i | slli rd rs1 i | srli rd rs1 i | srai rd rs1 i | xori rd rs1 i
  | andi rd rs1 i | ori rd rs1 i =>
    simp only [exec, execAddi, execSlti, execSltui, execSlli, execSrli, execSrai, execXori, execAndi, execOri,
      finish_eq] at h
    cases h; exact .inl ⟨_, _, _, rfl, rfl, rfl, fun _ => rfl, rfl⟩
  | beq rs1 rs2 i | bne rs1 rs2 i | blt rs1 rs2 i | bge rs1 rs2 i | bltu rs1 rs2 i | bgeu rs1 rs2 i =>
    simp only [exec, execBeq, execBne, execBlt, execBge, execBltu, execBgeu, branch_eq] at h
    cases h; exact .inr (.inl ⟨_, rfl, rfl, rfl, (fun hpc => by cases hpc), rfl⟩)
  | lb rd rs1 i => exact .inl (load rfl rfl rfl h)
  | lh rd rs1 i => exact .inl (load rfl rfl rfl h)
  | lw rd rs1 i => exact .inl (load rfl rfl rfl h)
  | lbu rd rs1 i => exact .inl (load rfl rfl rfl h)
  | lhu rd rs1 i => exact .inl (load rfl rfl rfl h)
  | sb rs1 rs2 i =>
    simp only [exec, execSb, State.storeByte] at h
    split at h
    · cases h
    · cases h
      have hc := (checkAccess_eq_none s _ 1 _).mp ‹_›
      exact .inr (.inr (.inl ⟨_, [_], rfl, rfl, rfl, rfl, .inl rfl, Nat.mod_one _, hc.2, rfl⟩))
  | sh rs1 rs2 i =>
    simp only [exec, execSh, State.storeHalf] at h
    split at h
    · cases h
    · cases h
      have hc := (checkAccess_eq_none s _ 2 _).mp ‹_›
      exact .inr (.inr (.inl ⟨_, [_, _], rfl, rfl, rfl, rfl, .inr (.inl rfl), hc.1, hc.2, rfl⟩))
  | sw rs1 rs2 i =>
    simp only [exec, execSw, State.storeWord] at h
    split at h
    · cases h
    · cases h
      have hc := (checkAccess_eq_none s _ 4 _).mp ‹_›
      exact .inr (.inr (.inl ⟨_, [_, _, _, _], rfl, rfl, rfl, rfl, .inr (.inr rfl), hc.1, hc.2, rfl⟩))
  | jal rd i | jalr rd rs1 i =>
    cases h; exact .inl ⟨_, _, _, rfl, rfl, rfl, (fun hpc => by cases hpc), rfl⟩
  | fence | unimp =>
    cases h; exact .inr (.inl ⟨_, rfl, rfl, rfl, (fun hpc => by first | rfl | cases hpc), rfl⟩)
  | ecall rd => exact .inr (.inr (.inr (sys rfl rfl rfl rfl h)))
  | ebreak rd => exact .inr (.inr (.inr (sys rfl rfl rfl rfl h)))

/-- No instruction is refused: every outcome is a next state or a fault (R269). -/
theorem exec_not_refused (i : Instr) (s : State) (r : Refusal) : exec i s ≠ .refused r := by
  have load {rd : Reg} {e : Except Fault Word} : s.finishLoad rd e ≠ .refused r := by
    cases e <;> simp [State.finishLoad, raise, State.finish]
  have store {e : Except Fault State} : finishStore e ≠ .refused r := by
    cases e <;> simp [finishStore, raise]
  have sys {call : SystemCall} {rd : Reg} : s.sysCall call rd ≠ .refused r := by
    obtain ⟨reason, -, hf⟩ | ⟨u, -, hn⟩ := sysCall_cases s call rd <;> simp [*]
  cases i
  all_goals first
    | exact load
    | exact store
    | exact sys
    | (intro h; cases h)

end Sys2Proof.Machine
end

