-- ==== Sys2Proof/Laws/Step.lean ====
section
/-! SUPPORT. What a step can do, said once (spec 60_exceptions.md R269), and the small lemmas of runs. -/

namespace Sys2Proof.Machine

open Sys2Proof

/-- All a step can do: fault in its fetch, fault in its decode, or execute the decoded instruction. -/
theorem step_cases (s : State) :
    (∃ f, s.fetch = .error f ∧ step s = .fault f) ∨
    (∃ w e, s.fetch = .ok w ∧ decode s.params.loadUnsigned w = .error e ∧
      step s = .fault (.illegalInstruction s.pc w)) ∨
    (∃ w i, s.fetch = .ok w ∧ decode s.params.loadUnsigned w = .ok i ∧ step s = exec i s) := by
  unfold step raise
  cases hf : s.fetch with
  | error f => exact .inl ⟨f, rfl, rfl⟩
  | ok w =>
    cases hd : decode s.params.loadUnsigned w with
    | error e => exact .inr (.inl ⟨w, e, rfl, hd, by simp [hd]⟩)
    | ok i => exact .inr (.inr ⟨w, i, rfl, hd, by simp [hd]⟩)

/-- A step that gives a next state executed an instruction. -/
theorem step_next {s t : State} (h : step s = .next t) :
    ∃ w i, s.fetch = .ok w ∧ decode s.params.loadUnsigned w = .ok i ∧ exec i s = .next t := by
  obtain ⟨f, -, hf⟩ | ⟨w, e, -, -, hf⟩ | ⟨w, i, hw, hi, hx⟩ := step_cases s
  · rw [hf] at h; cases h
  · rw [hf] at h; cases h
  · exact ⟨w, i, hw, hi, hx ▸ h⟩

/-- R296 in terms of the fetch and the decode. -/
theorem halted_iff (s : State) :
    s.halted = true ↔ ∃ w, s.fetch = .ok w ∧ decode s.params.loadUnsigned w = .ok .unimp := by
  unfold State.halted State.nextInstr
  cases hf : s.fetch with
  | error f => simp
  | ok w =>
    cases hd : decode s.params.loadUnsigned w with
    | error e => simp [hd, Except.toOption]
    | ok i => simp [hd, Except.toOption]

/-- A run of `n + 1` steps goes on from the state its first step gives. -/
theorem run_succ_next (n : Nat) {s t : State} (h : step s = .next t) :
    Host.Core.run Sys2Proof.core (n + 1) s = Host.Core.run Sys2Proof.core n t := by
  have hr := Host.Core.run.eq_2 Sys2Proof.core s n
  have hc : Sys2Proof.core.step s = .next t := h
  rw [hc] at hr
  exact hr

/-- A run whose first step faults ends there. -/
theorem run_succ_fault (n : Nat) {s : State} {f : Fault} (h : step s = .fault f) :
    Host.Core.run Sys2Proof.core (n + 1) s = .fault f := by
  have hr := Host.Core.run.eq_2 Sys2Proof.core s n
  have hc : Sys2Proof.core.step s = .fault f := h
  rw [hc] at hr
  exact hr

end Sys2Proof.Machine
end

