-- ==== Sys2Proof/Tests/Slice0.lean ====
section
/-! SUPPORT. Tests with expected values from the spec (95_test_vectors.md and the rules' own examples), and for every
obligation with hypotheses a witness that meets them. Every hand-written word is the spec's. -/

namespace Sys2Proof.Machine.Slice0Tests

open Sys2Proof Sys2Proof.Machine

/-! ## Well-formed instructions: one refused term per check -/

theorem test_wf_refuses_upper_immediate_low_bits : (Instr.lui 1 0x12345001#32).wf = false := by decide
theorem test_wf_refuses_i_immediate_2048 : (Instr.addi 1 2 2048#32).wf = false := by decide
theorem test_wf_refuses_i_immediate_below : (Instr.lw 1 2 0xFFFFF7FF#32).wf = false := by decide
theorem test_wf_refuses_s_immediate_2048 : (Instr.sw 1 2 2048#32).wf = false := by decide
theorem test_wf_refuses_odd_branch_offset : (Instr.beq 1 2 7#32).wf = false := by decide
theorem test_wf_refuses_branch_offset_4096 : (Instr.bgeu 1 2 4096#32).wf = false := by decide
theorem test_wf_refuses_odd_jump_offset : (Instr.jal 1 3#32).wf = false := by decide
theorem test_wf_refuses_jump_offset_1048576 : (Instr.jal 1 1048576#32).wf = false := by decide
theorem test_wf_refuses_shift_amount_32 : (Instr.srai 1 2 32#32).wf = false := by decide
theorem test_wf_accepts_the_ends : (Instr.addi 1 2 0xFFFFF800#32).wf && (Instr.blt 1 2 4094#32).wf &&
    (Instr.jal 1 0xFFF00000#32).wf && (Instr.srli 1 2 31#32).wf = true := by decide

/-! ## Decoding: words written out from the encoding tables (30_encoding.md R80, R88; 95_test_vectors.md 2, 3) -/

/-- The word decodes to the instruction under both settings of `LOAD_UNSIGNED_ENCODING`. -/
abbrev reads (w : Word) (i : Instr) : Prop := ∀ enc ∈ [LoadUnsignedEncoding.asPrinted, .rv32i], decode enc w = .ok i

/-- The word decodes to nothing under both settings. -/
abbrev undefinedWord (w : Word) : Prop :=
  ∀ enc ∈ [LoadUnsignedEncoding.asPrinted, .rv32i], decode enc w = .error (.undefinedEncoding w)

theorem test_decode_upper : reads 0xFFFFF0B7#32 (.lui 1 0xFFFFF000#32) ∧ reads 0x80000317#32 (.auipc 6 0x80000000#32) := by
  decide

theorem test_decode_jumps : reads 0x0FF000EF#32 (.jal 1 2302#32) ∧ reads 0x000FF0EF#32 (.jal 1 1044480#32) ∧
    reads 0xFF9FF06F#32 (.jal 0 0xFFFFFFF8#32) ∧ reads 0xFFC280E7#32 (.jalr 1 5 0xFFFFFFFC#32) := by decide

theorem test_decode_branches : reads 0x00208463#32 (.beq 1 2 8#32) ∧ reads 0xFE009CE3#32 (.bne 1 0 0xFFFFFFF8#32) ∧
    reads 0x8020C063#32 (.blt 1 2 0xFFFFF000#32) ∧ reads 0x7E20DFE3#32 (.bge 1 2 4094#32) ∧
    reads 0x0020E863#32 (.bltu 1 2 16#32) ∧ reads 0x0020F163#32 (.bgeu 1 2 2#32) ∧
    reads 0x000008E3#32 (.beq 0 0 2064#32) := by decide

theorem test_decode_loads : reads 0xFFF08183#32 (.lb 3 1 0xFFFFFFFF#32) ∧ reads 0x00209183#32 (.lh 3 1 2#32) ∧
    reads 0xFF80A183#32 (.lw 3 1 0xFFFFFFF8#32) := by decide

/-- C2: the words of `lbu` and `lhu` under each setting (95_test_vectors.md 2.6, 3.1, P2). -/
theorem test_decode_unsigned_loads : decode .asPrinted 0x0030B183#32 = .ok (.lbu 3 1 3#32) ∧
    decode .rv32i 0x0030C183#32 = .ok (.lbu 3 1 3#32) ∧ decode .asPrinted 0x0020C183#32 = .ok (.lhu 3 1 2#32) ∧
    decode .rv32i 0x0020D183#32 = .ok (.lhu 3 1 2#32) ∧
    decode .rv32i 0x00003003#32 = .error (.undefinedEncoding 0x00003003#32) ∧
    decode .asPrinted 0x00005003#32 = .error (.undefinedEncoding 0x00005003#32) := by decide

theorem test_decode_stores : reads 0x80208023#32 (.sb 1 2 0xFFFFF800#32) ∧ reads 0xFE209F23#32 (.sh 1 2 0xFFFFFFFE#32) ∧
    reads 0x7E20AFA3#32 (.sw 1 2 2047#32) ∧ reads 0x01FF2023#32 (.sw 30 31 0#32) := by decide

theorem test_decode_immediates : reads 0x80000093#32 (.addi 1 0 0xFFFFF800#32) ∧ reads 0x7FF0A193#32 (.slti 3 1 2047#32) ∧
    reads 0xFFF0B193#32 (.sltui 3 1 0xFFFFFFFF#32) ∧ reads 0x8000C193#32 (.xori 3 1 0xFFFFF800#32) ∧
    reads 0x7FF06193#32 (.ori 3 0 2047#32) ∧ reads 0xFFF0F193#32 (.andi 3 1 0xFFFFFFFF#32) := by decide

/-- Bits 31:25 of `slli` are free (R82), those of `srli` and `srai` are fixed (R80). -/
theorem test_decode_shifts : reads 0xFFF01013#32 (.slli 0 0 0xFFFFFFFF#32) ∧ reads 0x01F0D193#32 (.srli 3 1 31#32) ∧
    reads 0x4100D193#32 (.srai 3 1 16#32) ∧ undefinedWord 0x02005013#32 ∧ undefinedWord 0x20005013#32 := by decide

theorem test_decode_registers : reads 0x01DF0FB3#32 (.add 31 30 29) ∧ reads 0x402081B3#32 (.sub 3 1 2) ∧
    reads 0x002091B3#32 (.sll 3 1 2) ∧ reads 0x0020A1B3#32 (.slt 3 1 2) ∧ reads 0x0020B1B3#32 (.sltu 3 1 2) ∧
    reads 0x0020C1B3#32 (.xor 3 1 2) ∧ reads 0x0020D1B3#32 (.srl 3 1 2) ∧ reads 0x4020D1B3#32 (.sra 3 1 2) ∧
    reads 0x0020E1B3#32 (.or 3 1 2) ∧ reads 0x0020F1B3#32 (.and 3 1 2) := by decide

theorem test_decode_system : reads 0x8330000F#32 .fence ∧ reads 0xFFFFFF8F#32 .fence ∧ reads 0x00000FF3#32 (.ecall 31) ∧
    reads 0x00100073#32 (.ebreak 0) ∧ reads 0xC0001073#32 .unimp ∧ reads 0xC0001FF3#32 .unimp := by decide

theorem test_decode_undefined : undefinedWord 0#32 ∧ undefinedWord 0xFFFFFFFF#32 ∧ undefinedWord 0x02208133#32 ∧
    undefinedWord 0x40001033#32 ∧ undefinedWord 0x00001067#32 ∧ undefinedWord 0x00002063#32 ∧ undefinedWord 0x00006003#32 ∧
    undefinedWord 0x00003023#32 ∧ undefinedWord 0x00200073#32 ∧ undefinedWord 0x00008073#32 ∧ undefinedWord 0xC0101073#32 ∧
    undefinedWord 0x0000007F#32 := by decide

/-- R42: the bytes of an image in memory order; three bytes are no instruction. -/
theorem test_decode_bytes : decodeBytes .asPrinted [0x93#8, 0x00#8, 0xA0#8, 0x00#8, 0x13#8] = .ok (.addi 1 0 10#32, [0x13#8]) ∧
    decodeBytes .asPrinted [0x93#8, 0x00#8, 0xA0#8] = .error (.truncated 3) := by decide

/-! ## Single steps: the vectors of 95_test_vectors.md 2.1 to 2.9 -/

/-- `MEM_SIZE = 0x1000`. -/
def small : Params where
  memSize := 0x1000

/-- One step of the word `w` at `pc` from the reset state with these registers and this memory. -/
def stepOn (params : Params) (pc : Word) (regs : List (Reg × Word)) (mem : Memory) (w : Nat)
    (tape : List Byte := []) (answers : List EnvAnswer := []) : Result :=
  step ((({ State.reset with
      pc := pc
      mem := mem
      params := params
      input := tape
      answers := answers } : State).writeRegs regs).withFetchWord 32 w)

/-- The pc and one register of a next state. -/
def pcAndReg (r : Reg) : Result → Option (Word × Word)
  | .next t => some (t.pc, t.readReg r)
  | _ => none

/-- The pc and the `n` bytes from `a` of a next state. -/
def bytesAfter (x : Result) (a n : Nat) : Option (Word × List Byte) :=
  match x with
  | .next t => some (t.pc, (List.range n).map fun k => readByte t.mem (a + k))
  | _ => none

/-- The fault a step ends in. -/
def faultOf : Result → Option Fault
  | .fault f => some f
  | _ => none

/-- `lui x1 0xFFFFF000` -/
theorem test_lui_top_value :
    pcAndReg 1 (stepOn ({} : Params) 0x00000000#32 [] [] 0xFFFFF0B7) = some (0x00000004#32, 0xFFFFF000#32) := by decide

/-- `lui x0 0x12345000` -/
theorem test_lui_to_x0 :
    pcAndReg 0 (stepOn ({} : Params) 0x00000000#32 [] [] 0x12345037) = some (0x00000004#32, 0x00000000#32) := by decide

/-- `auipc x6 0xFFFFF000` -/
theorem test_auipc_wraps :
    pcAndReg 6 (stepOn ({} : Params) 0x00000010#32 [] [] 0xFFFFF317) = some (0x00000014#32, 0xFFFFF010#32) := by decide

/-- `auipc x6 0` -/
theorem test_auipc_reads_pc :
    pcAndReg 6 (stepOn ({} : Params) 0x7FFFFFFC#32 [] [] 0x00000317) = some (0x80000000#32, 0x7FFFFFFC#32) := by decide

/-- `add x3 x1 x2` -/
theorem test_add_signed_wrap :
    pcAndReg 3 (stepOn ({} : Params) 0x00000000#32 [(1, 0x7FFFFFFF#32), (2, 0x00000001#32)] [] 0x002081B3) = some (0x00000004#32, 0x80000000#32) := by decide

/-- `add x1 x1 x1` -/
theorem test_add_same_registers :
    pcAndReg 1 (stepOn ({} : Params) 0x00000000#32 [(1, 0x80000000#32)] [] 0x001080B3) = some (0x00000004#32, 0x00000000#32) := by decide

/-- `addi x1 x0 -2048` -/
theorem test_addi_smallest :
    pcAndReg 1 (stepOn ({} : Params) 0x00000000#32 [] [] 0x80000093) = some (0x00000004#32, 0xFFFFF800#32) := by decide

/-- `addi x1 x1 2047` -/
theorem test_addi_wraps :
    pcAndReg 1 (stepOn ({} : Params) 0x00000000#32 [(1, 0x7FFFF801#32)] [] 0x7FF08093) = some (0x00000004#32, 0x80000000#32) := by decide

/-- `sub x3 x1 x2` -/
theorem test_sub_borrow :
    pcAndReg 3 (stepOn ({} : Params) 0x00000000#32 [(1, 0x00000000#32), (2, 0x00000001#32)] [] 0x402081B3) = some (0x00000004#32, 0xFFFFFFFF#32) := by decide

/-- `sub x3 x0 x2` -/
theorem test_sub_negates_minimum :
    pcAndReg 3 (stepOn ({} : Params) 0x00000000#32 [(2, 0x80000000#32)] [] 0x402001B3) = some (0x00000004#32, 0x80000000#32) := by decide

/-- `slt x3 x1 x2` -/
theorem test_slt_signed_extremes :
    pcAndReg 3 (stepOn ({} : Params) 0x00000000#32 [(1, 0x80000000#32), (2, 0x7FFFFFFF#32)] [] 0x0020A1B3) = some (0x00000004#32, 0x00000001#32) := by decide

/-- `slt x3 x1 x2` -/
theorem test_slt_false_writes_zero :
    pcAndReg 3 (stepOn ({} : Params) 0x00000000#32 [(1, 0x7FFFFFFF#32), (2, 0x80000000#32), (3, 0x00000009#32)] [] 0x0020A1B3) = some (0x00000004#32, 0x00000000#32) := by decide

/-- `slti x3 x1 -2048` -/
theorem test_slti_true_below :
    pcAndReg 3 (stepOn ({} : Params) 0x00000000#32 [(1, 0xFFFFF7FF#32)] [] 0x8000A193) = some (0x00000004#32, 0x00000001#32) := by decide

/-- `slti x3 x1 -2048` -/
theorem test_slti_false_equal :
    pcAndReg 3 (stepOn ({} : Params) 0x00000000#32 [(1, 0xFFFFF800#32), (3, 0x00000009#32)] [] 0x8000A193) = some (0x00000004#32, 0x00000000#32) := by decide

/-- `sltu x3 x1 x2` -/
theorem test_sltu_unsigned_largest :
    pcAndReg 3 (stepOn ({} : Params) 0x00000000#32 [(1, 0xFFFFFFFF#32), (2, 0x00000000#32), (3, 0x00000009#32)] [] 0x0020B1B3) = some (0x00000004#32, 0x00000000#32) := by decide

/-- `sltu x3 x1 x2` -/
theorem test_sltu_unlike_slt :
    pcAndReg 3 (stepOn ({} : Params) 0x00000000#32 [(1, 0x7FFFFFFF#32), (2, 0x80000000#32)] [] 0x0020B1B3) = some (0x00000004#32, 0x00000001#32) := by decide

/-- `sltui x3 x1 -1` -/
theorem test_sltui_immediate_extends :
    pcAndReg 3 (stepOn ({} : Params) 0x00000000#32 [(1, 0xFFFFFFFF#32), (3, 0x00000009#32)] [] 0xFFF0B193) = some (0x00000004#32, 0x00000000#32) := by decide

/-- `sltui x3 x1 -1` -/
theorem test_sltui_true_below :
    pcAndReg 3 (stepOn ({} : Params) 0x00000000#32 [(1, 0xFFFFFFFE#32)] [] 0xFFF0B193) = some (0x00000004#32, 0x00000001#32) := by decide

/-- `sll x3 x1 x2` -/
theorem test_sll_by_32_is_0 :
    pcAndReg 3 (stepOn ({} : Params) 0x00000000#32 [(1, 0xFFFFFFFF#32), (2, 0x00000020#32)] [] 0x002091B3) = some (0x00000004#32, 0xFFFFFFFF#32) := by decide

/-- `sll x3 x1 x2` -/
theorem test_sll_by_31 :
    pcAndReg 3 (stepOn ({} : Params) 0x00000000#32 [(1, 0x0000FFFF#32), (2, 0xFFFFFFFF#32)] [] 0x002091B3) = some (0x00000004#32, 0x80000000#32) := by decide

/-- `slli x3 x1 36` -/
theorem test_slli_ignores_upper :
    pcAndReg 3 (stepOn ({} : Params) 0x00000000#32 [(1, 0x12345678#32)] [] 0x02409193) = some (0x00000004#32, 0x23456780#32) := by decide

/-- `slli x3 x1 31` -/
theorem test_slli_by_31 :
    pcAndReg 3 (stepOn ({} : Params) 0x00000000#32 [(1, 0x00000003#32)] [] 0x01F09193) = some (0x00000004#32, 0x80000000#32) := by decide

/-- `srl x3 x1 x2` -/
theorem test_srl_by_63_is_31 :
    pcAndReg 3 (stepOn ({} : Params) 0x00000000#32 [(1, 0x80000000#32), (2, 0x0000003F#32)] [] 0x0020D1B3) = some (0x00000004#32, 0x00000001#32) := by decide

/-- `srl x3 x1 x2` -/
theorem test_srl_by_32_is_0 :
    pcAndReg 3 (stepOn ({} : Params) 0x00000000#32 [(1, 0xFFFFFFFF#32), (2, 0x00000020#32)] [] 0x0020D1B3) = some (0x00000004#32, 0xFFFFFFFF#32) := by decide

/-- `srli x3 x1 1` -/
theorem test_srli_zero_enters :
    pcAndReg 3 (stepOn ({} : Params) 0x00000000#32 [(1, 0xFFFFFFFF#32)] [] 0x0010D193) = some (0x00000004#32, 0x7FFFFFFF#32) := by decide

/-- `srli x3 x1 31` -/
theorem test_srli_by_31 :
    pcAndReg 3 (stepOn ({} : Params) 0x00000000#32 [(1, 0x80000001#32)] [] 0x01F0D193) = some (0x00000004#32, 0x00000001#32) := by decide

/-- `sra x3 x1 x2` -/
theorem test_sra_by_36_is_4 :
    pcAndReg 3 (stepOn ({} : Params) 0x00000000#32 [(1, 0xFFFFFFF0#32), (2, 0x00000024#32)] [] 0x4020D1B3) = some (0x00000004#32, 0xFFFFFFFF#32) := by decide

/-- `sra x3 x1 x2` -/
theorem test_sra_positive :
    pcAndReg 3 (stepOn ({} : Params) 0x00000000#32 [(1, 0x7FFFFFFF#32), (2, 0x0000001F#32), (3, 0x00000009#32)] [] 0x4020D1B3) = some (0x00000004#32, 0x00000000#32) := by decide

/-- `srai x3 x1 1` -/
theorem test_srai_sign_copied :
    pcAndReg 3 (stepOn ({} : Params) 0x00000000#32 [(1, 0x80000001#32)] [] 0x4010D193) = some (0x00000004#32, 0xC0000000#32) := by decide

/-- `srai x3 x1 16` -/
theorem test_srai_positive :
    pcAndReg 3 (stepOn ({} : Params) 0x00000000#32 [(1, 0x12345678#32)] [] 0x4100D193) = some (0x00000004#32, 0x00001234#32) := by decide

/-- `xor x3 x1 x2` -/
theorem test_xor_bits :
    pcAndReg 3 (stepOn ({} : Params) 0x00000000#32 [(1, 0xFFFFFFFF#32), (2, 0x0F0F0F0F#32)] [] 0x0020C1B3) = some (0x00000004#32, 0xF0F0F0F0#32) := by decide

/-- `xori x3 x1 -2048` -/
theorem test_xori_immediate_extends :
    pcAndReg 3 (stepOn ({} : Params) 0x00000000#32 [(1, 0x00000800#32)] [] 0x8000C193) = some (0x00000004#32, 0xFFFFF000#32) := by decide

/-- `and x3 x1 x2` -/
theorem test_and_bits :
    pcAndReg 3 (stepOn ({} : Params) 0x00000000#32 [(1, 0xFFFFFFFF#32), (2, 0x12345678#32)] [] 0x0020F1B3) = some (0x00000004#32, 0x12345678#32) := by decide

/-- `andi x3 x1 -2048` -/
theorem test_andi_immediate_extends :
    pcAndReg 3 (stepOn ({} : Params) 0x00000000#32 [(1, 0xFFFFFFFF#32)] [] 0x8000F193) = some (0x00000004#32, 0xFFFFF800#32) := by decide

/-- `or x3 x1 x2` -/
theorem test_or_bits :
    pcAndReg 3 (stepOn ({} : Params) 0x00000000#32 [(1, 0xF0F0F0F0#32), (2, 0x0F0F0F0F#32)] [] 0x0020E1B3) = some (0x00000004#32, 0xFFFFFFFF#32) := by decide

/-- `ori x3 x0 0x7FF` -/
theorem test_ori_positive_immediate :
    pcAndReg 3 (stepOn ({} : Params) 0x00000000#32 [] [] 0x7FF06193) = some (0x00000004#32, 0x000007FF#32) := by decide

/-- `beq x1 x2 8` -/
theorem test_beq_taken :
    pcAndReg 31 (stepOn ({} : Params) 0x00000010#32 [(1, 0x00000007#32), (2, 0x00000007#32)] [] 0x00208463) = some (0x00000018#32, 0x00000000#32) := by decide

/-- `beq x0 x0 -16` -/
theorem test_beq_wraps :
    pcAndReg 31 (stepOn ({} : Params) 0x00000008#32 [] [] 0xFE0008E3) = some (0xFFFFFFF8#32, 0x00000000#32) := by decide

/-- `bne x1 x0 -8` -/
theorem test_bne_backward :
    pcAndReg 31 (stepOn ({} : Params) 0x00000010#32 [(1, 0x00000003#32)] [] 0xFE009CE3) = some (0x00000008#32, 0x00000000#32) := by decide

/-- `bne x1 x1 -8` -/
theorem test_bne_not_taken :
    pcAndReg 31 (stepOn ({} : Params) 0x00000010#32 [(1, 0x00000003#32)] [] 0xFE109CE3) = some (0x00000014#32, 0x00000000#32) := by decide

/-- `blt x1 x2 -4096` -/
theorem test_blt_signed_taken :
    pcAndReg 31 (stepOn ({} : Params) 0x00002000#32 [(1, 0xFFFFFFFF#32), (2, 0x00000000#32)] [] 0x8020C063) = some (0x00001000#32, 0x00000000#32) := by decide

/-- `blt x1 x2 16` -/
theorem test_blt_signed_not_taken :
    pcAndReg 31 (stepOn ({} : Params) 0x00000020#32 [(1, 0x00000000#32), (2, 0xFFFFFFFF#32)] [] 0x0020C863) = some (0x00000024#32, 0x00000000#32) := by decide

/-- `bge x1 x2 4094` -/
theorem test_bge_equal_taken :
    pcAndReg 31 (stepOn ({} : Params) 0x00000000#32 [(1, 0x00000005#32), (2, 0x00000005#32)] [] 0x7E20DFE3) = some (0x00000FFE#32, 0x00000000#32) := by decide

/-- `bge x1 x2 16` -/
theorem test_bge_signed_not_taken :
    pcAndReg 31 (stepOn ({} : Params) 0x00000020#32 [(1, 0x80000000#32), (2, 0x00000000#32)] [] 0x0020D863) = some (0x00000024#32, 0x00000000#32) := by decide

/-- `bltu x1 x2 16` -/
theorem test_bltu_unsigned_taken :
    pcAndReg 31 (stepOn ({} : Params) 0x00000020#32 [(1, 0x00000001#32), (2, 0xFFFFFFFF#32)] [] 0x0020E863) = some (0x00000030#32, 0x00000000#32) := by decide

/-- `bltu x1 x2 16` -/
theorem test_bltu_unsigned_not_taken :
    pcAndReg 31 (stepOn ({} : Params) 0x00000020#32 [(1, 0xFFFFFFFF#32), (2, 0x00000001#32)] [] 0x0020E863) = some (0x00000024#32, 0x00000000#32) := by decide

/-- `bgeu x1 x2 12` -/
theorem test_bgeu_unsigned_taken :
    pcAndReg 31 (stepOn ({} : Params) 0x00000040#32 [(1, 0x80000000#32), (2, 0x00000001#32)] [] 0x0020F663) = some (0x0000004C#32, 0x00000000#32) := by decide

/-- `bgeu x1 x2 12` -/
theorem test_bgeu_unsigned_not_taken :
    pcAndReg 31 (stepOn ({} : Params) 0x00000040#32 [(1, 0x00000000#32), (2, 0x00000001#32)] [] 0x0020F663) = some (0x00000044#32, 0x00000000#32) := by decide

/-- `lb x3 x1 -1` -/
theorem test_lb_sign_extends :
    pcAndReg 3 (stepOn ({} : Params) 0x00000000#32 [(1, 0x00000101#32)] (writeBytes [] 0x100 [0x80#8, 0x7F#8, 0x34#8, 0xF2#8]) 0xFFF08183) = some (0x00000004#32, 0xFFFFFF80#32) := by decide

/-- `lb x3 x1 -1` -/
theorem test_lb_last_byte :
    pcAndReg 3 (stepOn small 0x00000000#32 [(1, 0x00001000#32)] (writeBytes [] 0xFFF [0xFE#8]) 0xFFF08183) = some (0x00000004#32, 0xFFFFFFFE#32) := by decide

/-- `lbu x3 x1 0` -/
theorem test_lbu_zero_extends :
    pcAndReg 3 (stepOn ({} : Params) 0x00000000#32 [(1, 0x00000100#32)] (writeBytes [] 0x100 [0x80#8, 0x7F#8, 0x34#8, 0xF2#8]) 0x0000B183) = some (0x00000004#32, 0x00000080#32) := by decide

/-- `lh x3 x1 2` -/
theorem test_lh_sign_extends :
    pcAndReg 3 (stepOn ({} : Params) 0x00000000#32 [(1, 0x00000100#32)] (writeBytes [] 0x100 [0x80#8, 0x7F#8, 0x34#8, 0xF2#8]) 0x00209183) = some (0x00000004#32, 0xFFFFF234#32) := by decide

/-- `lh x3 x1 1` -/
theorem test_lh_odd_faults :
    faultOf (stepOn ({} : Params) 0x00000000#32 [(1, 0x00000100#32), (3, 0x00000009#32)] (writeBytes [] 0x100 [0x80#8, 0x7F#8, 0x34#8, 0xF2#8]) 0x00109183) = some (.misalignedLoad 0x00000101#32) := by decide

/-- `lhu x3 x1 2` -/
theorem test_lhu_zero_extends :
    pcAndReg 3 (stepOn ({} : Params) 0x00000000#32 [(1, 0x00000100#32)] (writeBytes [] 0x100 [0x80#8, 0x7F#8, 0x34#8, 0xF2#8]) 0x0020C183) = some (0x00000004#32, 0x0000F234#32) := by decide

/-- `lw x1 x1 0` -/
theorem test_lw_old_base :
    pcAndReg 1 (stepOn ({} : Params) 0x00000000#32 [(1, 0x00000100#32)] (writeBytes [] 0x100 [0x80#8, 0x7F#8, 0x34#8, 0xF2#8]) 0x0000A083) = some (0x00000004#32, 0xF2347F80#32) := by decide

/-- `lw x3 x1 1` -/
theorem test_lw_alignment_first :
    faultOf (stepOn small 0x00000000#32 [(1, 0x00001000#32), (3, 0x00000009#32)] [] 0x0010A183) = some (.misalignedLoad 0x00001001#32) := by decide

/-- `sb x1 x2 0` -/
theorem test_sb_neighbours_kept :
    bytesAfter (stepOn ({} : Params) 0x00000000#32 [(1, 0x00000101#32), (2, 0x000000FF#32)] (writeBytes [] 0x100 [0x11#8, 0x22#8, 0x33#8]) 0x00208023) 0x100 3 = some (0x00000004#32, [0x11#8, 0xFF#8, 0x33#8]) := by decide

/-- `sb x1 x2 0` -/
theorem test_sb_out_of_range :
    faultOf (stepOn small 0x00000000#32 [(1, 0x00001000#32), (2, 0x00000001#32)] [] 0x00208023) = some (.accessOutOfRange 0x00001000#32) := by decide

/-- `sh x1 x2 -2` -/
theorem test_sh_low_half :
    bytesAfter (stepOn ({} : Params) 0x00000000#32 [(1, 0x00000104#32), (2, 0xDEADBEEF#32)] [] 0xFE209F23) 0x102 2 = some (0x00000004#32, [0xEF#8, 0xBE#8]) := by decide

/-- `sh x1 x2 1` -/
theorem test_sh_odd_faults :
    faultOf (stepOn ({} : Params) 0x00000000#32 [(1, 0x00000100#32), (2, 0x0000BEEF#32)] [] 0x002090A3) = some (.misalignedStore 0x00000101#32) := by decide

/-- `sw x1 x2 8` -/
theorem test_sw_little_endian :
    bytesAfter (stepOn ({} : Params) 0x00000000#32 [(1, 0x00000100#32), (2, 0x12345678#32)] [] 0x0020A423) 0x108 4 = some (0x00000004#32, [0x78#8, 0x56#8, 0x34#8, 0x12#8]) := by decide

/-- `sw x1 x2 -4` -/
theorem test_sw_wraps :
    bytesAfter (stepOn ({} : Params) 0x00000000#32 [(1, 0x00000000#32), (2, 0xCAFEF00D#32)] [] 0xFE20AE23) 0xFFFFFFFC 4 = some (0x00000004#32, [0x0D#8, 0xF0#8, 0xFE#8, 0xCA#8]) := by decide

/-- `jal x1 -1048576` -/
theorem test_jal_farthest_back :
    pcAndReg 1 (stepOn ({} : Params) 0x00100000#32 [] [] 0x800000EF) = some (0x00000000#32, 0x00100004#32) := by decide

/-- `jal x1 -4` -/
theorem test_jal_wraps :
    pcAndReg 1 (stepOn ({} : Params) 0x00000000#32 [] [] 0xFFDFF0EF) = some (0xFFFFFFFC#32, 0x00000004#32) := by decide

/-- `jalr x2 x1 0` -/
theorem test_jalr_old_base :
    pcAndReg 2 (stepOn ({} : Params) 0x00000004#32 [(1, 0x00000011#32)] [] 0x00008167) = some (0x00000011#32, 0x00000008#32) := by decide

/-- `jalr x2 x1 1` -/
theorem test_jalr_odd_target_kept :
    pcAndReg 2 (stepOn ({} : Params) 0x00000004#32 [(1, 0x0000001F#32)] [] 0x00108167) = some (0x00000020#32, 0x00000008#32) := by decide

/-- `fence` -/
theorem test_fence_writes_nothing :
    pcAndReg 31 (stepOn ({} : Params) 0x00000010#32 [(31, 0x00000005#32)] [] 0xFFFFFF8F) = some (0x00000014#32, 0x00000005#32) := by decide

/-- `ecall x10` -/
theorem test_ecall_refused :
    faultOf (stepOn ({} : Params) 0x00000010#32 [(10, 0x00000007#32)] [] 0x00000573) = some (.environmentFault 0x00000010#32 .refused) := by decide

/-- `ebreak x10` -/
theorem test_ebreak_refused :
    faultOf (stepOn ({} : Params) 0x00000010#32 [] [] 0x00100573) = some (.environmentFault 0x00000010#32 .refused) := by decide

/-- `unimp` -/
theorem test_unimp_stays :
    pcAndReg 31 (stepOn ({} : Params) 0x00000030#32 [(31, 0x00000005#32)] [] 0xC0001FF3) = some (0x00000030#32, 0x00000005#32) := by decide

/-- All of a next state that a system call can change. -/
def afterCall (r : Reg) : Result → Option ((Word × Word) × Memory × List Byte × List EnvAnswer)
  | .next t => some ((t.pc, t.readReg r), t.mem, t.input, t.answers)
  | _ => none

/-- The register-only environment of 95_test_vectors.md P10: its first call. -/
theorem test_ecall_register_only :
    afterCall 10 (stepOn (tape := [0x41#8, 0x42#8]) (answers := [.registerOnly 0x41#32 1]) ({} : Params) 0#32 [] [] 0x573) =
      some ((4#32, 0x41#32), [(0, 0x73#8), (1, 5#8)], [0x42#8], []) := by decide

/-- R242: `ebreak` is a system call as `ecall` is; a havoc answer names its registers, bytes and tape. -/
theorem test_ebreak_havoc :
    afterCall 5 (stepOn (answers := [.havoc [(0, 7#32), (5, 9#32)] [(64, 1#8)] [2#8]]) ({} : Params) 0#32 [] [] 0x100573) =
      some ((4#32, 9#32), [(0, 0x73#8), (1, 5#8), (2, 0x10#8), (64, 1#8)], [2#8], []) := by decide

/-- R290, R294: the first word of P1's image after reset, and a byte no image lists. -/
theorem test_launch_loads_the_image :
    (match launch small [] [0x93#8, 0x00#8, 0xA0#8, 0x00#8] [] with
      | .next t => some (t.nextInstr, t.output [2#32, 0xFFF#32], t.halted)
      | _ => none) = some (some (.addi 1 0 10#32), [some 0xA0#8, some 0#8], false) := by decide

/-- R246: a call under the rule `free` draws a result and counts it. -/
theorem test_free_environment_draws : (State.takeAnswer { State.reset with params := { env := .free } } .ecall 10).1 =
    freeEnv 0 .ecall 0#32 State.reset.regs [] [] 10 ∧
    (State.takeAnswer { State.reset with params := { env := .free } } .ecall 10).2.draws = 1 := ⟨rfl, rfl⟩

/-- R45, D1: a misaligned pc. -/
theorem test_fetch_misaligned : faultOf (stepOn ({} : Params) 0x11#32 [] [] 0x13) = some (.misalignedFetch 0x11#32) := by
  decide

/-- P7: running off the end of the image. -/
theorem test_fetch_of_zeros : faultOf (step { State.reset with pc := 4#32 }) = some (.illegalInstruction 4#32 0#32) := by
  decide

/-- The memory rule of 10_state.md R33: writing zero over a byte removes its entry. -/
theorem test_write_of_zero_removes : writeByte [(3, 1#8), (5, 2#8)] 3 0#8 = [(5, 2#8)] := by decide

/-! ## Witnesses: for every obligation with hypotheses, states and operands that meet them -/

/-- A word whose masked bits are the pattern. -/
abbrev masked (w mask pattern : Word) : Prop := w &&& mask = pattern

/-- A running state: registers, listed memory, a tape, `MEM_SIZE = 0x1000`. -/
def busy : State :=
  ({ State.reset with
      mem := [(0x100, 0x80#8), (0x101, 0x7F#8), (0xFFF, 0xFE#8)]
      input := [0x41#8, 0x42#8]
      params := small } : State).writeRegs [(1, 0x100#32), (2, 0xDEADBEEF#32), (3, 0xFFC#32), (4, 0x1000#32), (5, 0xFFF#32), (6, 0x1001#32)]

/-- `busy` with an answer to come. -/
def busyWith (a : EnvAnswer) : State := { busy with answers := [a] }

/-- A state at whose pc the word `w` stands. -/
def standing (w : Nat) : State := busy.withFetchWord 32 w

theorem witness_busy_inv : busy.Inv := by decide

theorem witness_LuiWritesItsImmediate : masked 0xFFFFF0B7#32 0x0000007F#32 0x00000037#32 := by decide

theorem witness_AuipcAddsItsImmediateToPc : masked 0x80000317#32 0x0000007F#32 0x00000017#32 := by decide

theorem witness_AddAndSubAreModular : masked 0x01DF0FB3#32 0xFE00707F#32 0x00000033#32 ∧
    masked 0x402081B3#32 0xFE00707F#32 0x40000033#32 := by decide

theorem witness_AddiAddsASignedImmediate : masked 0xFFF00093#32 0x0000707F#32 0x00000013#32 := by decide

theorem witness_SetLessThanComparesRegisters : masked 0x0020A1B3#32 0xFE00707F#32 0x00002033#32 ∧
    masked 0x0020B1B3#32 0xFE00707F#32 0x00003033#32 := by decide

theorem witness_SetLessThanComparesImmediate : masked 0x8000A193#32 0x0000707F#32 0x00002013#32 ∧
    masked 0xFFF0B193#32 0x0000707F#32 0x00003013#32 := by decide

theorem witness_RegisterShiftsMoveBits : masked 0x002091B3#32 0xFE00707F#32 0x00001033#32 ∧
    masked 0x0020D1B3#32 0xFE00707F#32 0x00005033#32 ∧
    masked 0x4020D1B3#32 0xFE00707F#32 0x40005033#32 := by decide

theorem witness_ImmediateShiftsMoveBits : masked 0xFFF01013#32 0x0000707F#32 0x00001013#32 ∧
    masked 0x01F0D193#32 0xFE00707F#32 0x00005013#32 ∧
    masked 0x4100D193#32 0xFE00707F#32 0x40005013#32 := by decide

theorem witness_RegisterLogicIsBitwise : masked 0x0020C1B3#32 0xFE00707F#32 0x00004033#32 ∧
    masked 0x0020F1B3#32 0xFE00707F#32 0x00007033#32 ∧
    masked 0x0020E1B3#32 0xFE00707F#32 0x00006033#32 := by decide

theorem witness_ImmediateLogicIsBitwise : masked 0x8000C193#32 0x0000707F#32 0x00004013#32 ∧
    masked 0xFFF0F193#32 0x0000707F#32 0x00007013#32 ∧
    masked 0x7FF06193#32 0x0000707F#32 0x00006013#32 := by decide

theorem witness_EqualityBranchesCompareAllBits : masked 0x00208463#32 0x0000707F#32 0x00000063#32 ∧
    masked 0xFE009CE3#32 0x0000707F#32 0x00001063#32 := by decide

theorem witness_SignedBranchesCompareAsIntegers : masked 0x8020C063#32 0x0000707F#32 0x00004063#32 ∧
    masked 0x7E20DFE3#32 0x0000707F#32 0x00005063#32 := by decide

theorem witness_UnsignedBranchesCompareAsNaturals : masked 0x0020E863#32 0x0000707F#32 0x00006063#32 ∧
    masked 0x0020F163#32 0x0000707F#32 0x00007063#32 := by decide

theorem witness_FenceOnlyAdvances : masked 0xFFFFFF8F#32 0x0000007F#32 0x0000000F#32 := by decide

theorem witness_UnimpChangesNothing : masked 0xC0001FF3#32 0xFFFFF07F#32 0xC0001073#32 := by decide

theorem witness_JalLinksAndJumps : masked 0x7FFFF0EF#32 0x0000007F#32 0x0000006F#32 := by decide

theorem witness_JalrJumpsToTheExactSum : masked 0xFFC280E7#32 0x0000707F#32 0x00000067#32 := by decide

theorem witness_ByteLoadsExtendTheByte : masked 0xFFF08183#32 0x0000707F#32 0x00000003#32 ∧
    masked 0x0030B183#32 0x0000707F#32 0x00003003#32 ∧
    masked 0x0030C183#32 0x0000707F#32 0x00004003#32 ∧
    (busy.readReg 5 + 0#32).toNat < busy.params.memSize ∧
    busy.params.memSize ≤ (busy.readReg 4 + 0#32).toNat := by decide

theorem witness_HalfwordLoadsExtendTheHalfword : masked 0x00209183#32 0x0000707F#32 0x00001003#32 ∧
    masked 0x0020C183#32 0x0000707F#32 0x00004003#32 ∧
    masked 0x0020D183#32 0x0000707F#32 0x00005003#32 ∧
    ((busy.readReg 3 + 2#32).toNat % 2 = 0 ∧ (busy.readReg 3 + 2#32).toNat < busy.params.memSize) ∧
    (busy.readReg 5 + 0#32).toNat % 2 = 1 ∧
    (busy.readReg 4 + 0#32).toNat % 2 = 0 ∧ busy.params.memSize ≤ (busy.readReg 4 + 0#32).toNat := by decide

theorem witness_WordLoadReadsLittleEndian : masked 0xFF80A183#32 0x0000707F#32 0x00002003#32 ∧
    ((busy.readReg 3 + 0#32).toNat % 4 = 0 ∧ (busy.readReg 3 + 0#32).toNat < busy.params.memSize) ∧
    (busy.readReg 3 + 2#32).toNat % 4 ≠ 0 ∧
    (busy.readReg 4 + 0#32).toNat % 4 = 0 ∧ busy.params.memSize ≤ (busy.readReg 4 + 0#32).toNat := by decide

theorem witness_ByteStoreWritesOneByte : masked 0x80208023#32 0x0000707F#32 0x00000023#32 ∧
    (busy.Inv ∧ (busy.readReg 5 + 0#32).toNat < busy.params.memSize) ∧
    busy.params.memSize ≤ (busy.readReg 4 + 0#32).toNat := by decide

theorem witness_HalfwordStoreWritesTwoBytes : masked 0xFE209F23#32 0x0000707F#32 0x00001023#32 ∧
    (busy.Inv ∧ (busy.readReg 3 + 2#32).toNat % 2 = 0 ∧ (busy.readReg 3 + 2#32).toNat < busy.params.memSize) ∧
    (busy.readReg 5 + 0#32).toNat % 2 ≠ 0 ∧
    (busy.readReg 4 + 0#32).toNat % 2 = 0 ∧ busy.params.memSize ≤ (busy.readReg 4 + 0#32).toNat := by decide

theorem witness_WordStoreWritesFourBytes : masked 0x7E20AFA3#32 0x0000707F#32 0x00002023#32 ∧
    (busy.Inv ∧ (busy.readReg 3 + 0#32).toNat % 4 = 0 ∧ (busy.readReg 3 + 0#32).toNat < busy.params.memSize) ∧
    (busy.readReg 3 + 2#32).toNat % 4 ≠ 0 ∧
    (busy.readReg 4 + 0#32).toNat % 4 = 0 ∧ busy.params.memSize ≤ (busy.readReg 4 + 0#32).toNat := by decide

theorem witness_SystemCallTakesARegisterOnlyAnswer : masked 0x00000FF3#32 0xFFFFF07F#32 0x00000073#32 ∧
    masked 0x00100FF3#32 0xFFFFF07F#32 0x00100073#32 ∧
    (busyWith (.registerOnly 7#32 1)).answers = .registerOnly 7#32 1 :: [] := by decide

theorem witness_SystemCallTakesAHavocAnswer : (busyWith (.havoc [(5, 1#32)] [(0xFFF, 2#8), (0x1000, 3#8)] [])).Inv ∧
    (busyWith (.havoc [(5, 1#32)] [(0xFFF, 2#8), (0x1000, 3#8)] [])).answers =
      .havoc [(5, 1#32)] [(0xFFF, 2#8), (0x1000, 3#8)] [] :: [] ∧
    ([((5 : Reg), 1#32)].map Prod.fst).Nodup ∧ ([(0xFFF, 2#8), (0x1000, 3#8)].map Prod.fst).Nodup ∧
    (5 : Reg) ≠ 0 ∧ 0xFFF < busy.params.memSize ∧ busy.params.memSize ≤ 0x1000 ∧
    (0xFFE ∉ [(0xFFF, 2#8), (0x1000, 3#8)].map Prod.fst) := by decide

theorem witness_EveryEnvironmentResultIsAnAnswer : busy.Inv ∧ (fun _ : Reg => 0#32) 0 = 0#32 ∧
    Memory.wf [(0xFFF, 1#8)] ∧ Memory.within [(0xFFF, 1#8)] busy.params.memSize := by decide

theorem witness_RefusedSystemCallFaults : (busyWith (.refuse (.code 3))).answers = .refuse (.code 3) :: [] ∧
    busy.answers = [] ∧ busy.params.env = .refuse := by decide

theorem witness_ByteAccessOutsideMemoryFaults : busy.params.memSize ≤ (busy.readReg 4 + 0#32).toNat := by decide

theorem witness_FetchChecksComeFirst : (busy.setPc 0x11#32).pc.toNat % 4 ≠ 0 ∧
    ((busy.setPc 0x1000#32).pc.toNat % 4 = 0 ∧ busy.params.memSize ≤ (busy.setPc 0x1000#32).pc.toNat) ∧
    (busy.setPc 0xFFC#32).pc.toNat % 4 = 0 ∧ (busy.setPc 0xFFC#32).pc.toNat < busy.params.memSize ∧
    decode busy.params.loadUnsigned (readByte busy.mem 0xFFF ++ readByte busy.mem 0xFFE ++ readByte busy.mem 0xFFD ++
      readByte busy.mem 0xFFC : Word) = .error (.undefinedEncoding 0xFE000000#32) := by decide

theorem witness_StepRunsTheDecodedInstruction : (standing 0x00208463).pc.toNat % 4 = 0 ∧
    (standing 0x00208463).pc.toNat < (standing 0x00208463).params.memSize ∧
    decode (standing 0x00208463).params.loadUnsigned (readByte (standing 0x00208463).mem 3 ++
      readByte (standing 0x00208463).mem 2 ++ readByte (standing 0x00208463).mem 1 ++
      readByte (standing 0x00208463).mem 0 : Word) = .ok (.beq 1 2 8#32) := by decide

/-- One instruction and state for each line of the fault table that `exec` can raise. -/
theorem witness_OnlyListedInstructionsFault : faultOf (exec (.lh 9 5 0#32) busy) = some (.misalignedLoad 0xFFF#32) ∧
    faultOf (exec (.lw 9 3 2#32) busy) = some (.misalignedLoad 0xFFE#32) ∧
    faultOf (exec (.sh 5 2 0#32) busy) = some (.misalignedStore 0xFFF#32) ∧
    faultOf (exec (.sw 3 2 2#32) busy) = some (.misalignedStore 0xFFE#32) ∧
    faultOf (exec (.lb 9 4 0#32) busy) = some (.accessOutOfRange 0x1000#32) ∧
    faultOf (exec (.ecall 9) busy) = some (.environmentFault 0#32 .refused) := by decide

theorem witness_OnlyTheDestinationRegisterChanges : (Instr.add 3 1 2).isSystemCall = false ∧
    (∃ t, exec (.add 3 1 2) busy = .next t) ∧ (Instr.add 3 1 2).dest ≠ some 4 := ⟨rfl, ⟨_, rfl⟩, by decide⟩

theorem witness_OnlyStoresAndSystemCallsChangeMemory : busy.Inv ∧
    ((Instr.add 3 1 2).isSystemCall = false ∧ (Instr.add 3 1 2).isStore = false ∧ (pcAndReg 0 (exec (.add 3 1 2) busy)).isSome) ∧
    ((Instr.sb 5 2 0#32).isSystemCall = false ∧ (pcAndReg 0 (exec (.sb 5 2 0#32) busy)).isSome ∧ 0xFFE ≠ (busy.readReg 5 + 0#32).toNat) ∧
    ((Instr.sh 3 2 2#32).isSystemCall = false ∧ (pcAndReg 0 (exec (.sh 3 2 2#32) busy)).isSome ∧ 0xFFD < (busy.readReg 3 + 2#32).toNat) ∧
    (Instr.sw 3 2 0#32).isSystemCall = false ∧ (pcAndReg 0 (exec (.sw 3 2 0#32) busy)).isSome ∧
      (busy.readReg 3 + 0#32).toNat + 4 ≤ 0x1000 := by decide

theorem witness_OnlySystemCallsTouchTheTape : (pcAndReg 0 (exec (.sw 3 2 0#32) busy)).isSome ∧
    (Instr.sw 3 2 0#32).isSystemCall = false := by decide

theorem witness_PcAdvancesByFour : (pcAndReg 0 (exec (.lw 9 3 0#32) (busy.setPc 0xFFFFFFFC#32))).isSome ∧
    (Instr.lw 9 3 0#32).setsPc = false ∧ (pcAndReg 0 (exec (.bne 1 2 8#32) busy)).isSome := by decide

theorem witness_RegisterZeroIsHardwired : (Instr.lw 0 3 0#32).isSystemCall = false ∧ (Instr.lw 0 3 0#32).dest = some 0 ∧
    (pcAndReg 0 (exec (.lw 0 3 0#32) busy)).isSome := by decide

/-- `sw x3 x2 0` at the last word of memory, with memory listed. -/
theorem witness_StepKeepsTheInvariant : (standing 0x0021A023).Inv ∧ (pcAndReg 0 (step (standing 0x0021A023))).isSome := by
  decide

theorem witness_LaunchMeetsTheInvariant : ∃ s, launch small [] [1#8, 0#8, 2#8] [3#8] = .next s := ⟨_, rfl⟩

theorem witness_ResetHoldsTheImage : Params.wf { memSize := 4, loadUnsigned := .rv32i } ∧
    [1#8, 2#8, 3#8, 4#8].length ≤ 4 ∧ 3 < [1#8, 2#8, 3#8, 4#8].length ∧ [1#8, 2#8, 3#8, 4#8].length ≤ 4 ∧ 4 ≤ [1#8, 2#8, 3#8, 4#8].length := by decide

theorem witness_LaunchRefusesWhatDoesNotFit : ¬ Params.wf { memSize := 6 } ∧ Params.wf { memSize := 4 } ∧
    4 < [1#8, 2#8, 3#8, 4#8, 5#8].length := by decide

theorem witness_TheTapeIsSecretWithoutSystemCalls : (standing 0x00208463).nextInstr = some (.beq 1 2 8#32) ∧
    (Instr.beq 1 2 8#32).isSystemCall = false ∧ (standing 0x00208463).input ≠ [] := by decide

theorem witness_HaltedStatesRepeatForever : (standing 0xC0001073).halted = true := by decide

theorem witness_ARunHasOneOutcome : Completes (standing 0xC0001073) (standing 0xC0001073) ∧
    EndsInFault State.reset (.illegalInstruction 0#32 0#32) :=
  ⟨⟨0, rfl, by decide⟩, ⟨1, rfl⟩⟩

/-- The offset 2, and for each branch operands that take it and operands that do not. -/
theorem witness_MisalignedJumpsFaultAtTheNextFetch : (busy.readReg 6 + 0#32).toNat % 4 ≠ 0 ∧
    (busy.pc + 2#32).toNat % 4 ≠ 0 ∧
    (busy.readReg 1 = busy.readReg 1 ∧ ¬ busy.readReg 1 = busy.readReg 2) ∧
    (busy.readReg 1 ≠ busy.readReg 2 ∧ ¬ busy.readReg 1 ≠ busy.readReg 1) ∧
    ((busy.readReg 2).toInt < (busy.readReg 1).toInt ∧ ¬ (busy.readReg 1).toInt < (busy.readReg 1).toInt) ∧
    ((busy.readReg 1).toInt ≤ (busy.readReg 1).toInt ∧ ¬ (busy.readReg 1).toInt ≤ (busy.readReg 2).toInt) ∧
    ((busy.readReg 1).toNat < (busy.readReg 2).toNat ∧ ¬ (busy.readReg 1).toNat < (busy.readReg 1).toNat) ∧
    (busy.readReg 1).toNat ≤ (busy.readReg 1).toNat ∧ ¬ (busy.readReg 2).toNat ≤ (busy.readReg 1).toNat := by decide

/-- A taken branch to a misaligned target, and the fetch after it (95_test_vectors.md 2.5, bgeu with offset 2). -/
theorem test_taken_misaligned_branch_faults_next :
    pcAndReg 0 (exec (.bgeu 1 1 2#32) (busy.setPc 0x40#32)) = some (0x42#32, 0#32) ∧
    faultOf (step (busy.setPc 0x42#32)) = some (.misalignedFetch 0x42#32) := by decide

/-- `addi x5 x0 42` stored at the word after the pc (P4). -/
theorem witness_AStoreIsSeenByTheNextFetch : (busy.writeReg 7 0x02A00293#32).Inv ∧
    (busy.writeReg 7 0x02A00293#32).readReg 0 + 4#32 = (busy.writeReg 7 0x02A00293#32).pc + 4#32 ∧
    ((busy.writeReg 7 0x02A00293#32).pc + 4#32).toNat % 4 = 0 ∧
    ((busy.writeReg 7 0x02A00293#32).pc + 4#32).toNat < (busy.writeReg 7 0x02A00293#32).params.memSize ∧
    decode .asPrinted ((busy.writeReg 7 0x02A00293#32).readReg 7) = .ok (.addi 5 0 42#32) := by decide

theorem witness_WordsAreLittleEndian : Memory.wf [(0x100, 0x80#8), (0x101, 0x7F#8)] := by decide

theorem witness_AccessesOfDifferentWidthsSeeTheSameBytes : Memory.wf [(0x100, 0x80#8), (0x101, 0x7F#8)] := by decide

theorem witness_ALoadSeesTheLatestStore : busy.Inv ∧ (9 : Reg) ≠ 0 ∧
    ((busy.readReg 3 + 0#32).toNat < busy.params.memSize ∧ (busy.readReg 3 + 0#32).toNat % 4 = 0) ∧
    ((busy.readReg 3 + 2#32).toNat < busy.params.memSize ∧ (busy.readReg 3 + 2#32).toNat % 2 = 0) ∧
    (busy.readReg 5 + 0#32).toNat < busy.params.memSize := by decide

theorem witness_DecodeOfEncodeIsTheInstruction : (Instr.blt 31 30 0xFFFFF000#32).wf = true := by decide

theorem witness_EncodeOfDecodeIsTheWord : decode .rv32i 0x0020D183#32 = .ok (.lhu 3 1 2#32) ∧
    Instr.lhu 3 1 2#32 ≠ .fence ∧ Instr.lhu 3 1 2#32 ≠ .unimp := by decide

theorem witness_LuiThenAddiBuildsAConstant : (31 : Reg) ≠ 0 := by decide

theorem witness_CarryOutIsRecoveredBySltu : (3 : Reg) ≠ 0 ∧ (3 : Reg) ≠ 1 ∧ (4 : Reg) ≠ 0 := by decide

theorem witness_APlacedWordRunsNext : busy.Inv ∧ busy.pc.toNat % 4 = 0 ∧ busy.pc.toNat < busy.params.memSize ∧
    decode busy.params.loadUnsigned 0x01DF0FB3#32 = .ok (.add 31 30 29) ∧ busy.pc.toNat + 4 ≤ 4 := by decide

/-- Placing a word of zeros at the end of memory: the last word that exists. -/
theorem witness_APlacedWordRunsNext_at_the_end : (busy.setPc 0xFFC#32).Inv ∧ (busy.setPc 0xFFC#32).pc.toNat % 4 = 0 ∧
    (busy.setPc 0xFFC#32).pc.toNat < busy.params.memSize ∧ 0xFFB < (busy.setPc 0xFFC#32).pc.toNat := by decide

/-- A state under the rule `free`, with no answer fixed. -/
def busyFree : State := { busy with params := { small with env := .free } }

theorem witness_FreeEnvironmentAnswersEveryCall : busyFree.answers = [] ∧ busyFree.params.env = .free ∧
    (pcAndReg 0 (exec (.add 3 1 2) busyFree)).isSome := by decide

theorem witness_ResetIsTheLaunchOfNothing : ∃ s, launch { small with env := .free } [] [1#8] [] = .next s := ⟨_, rfl⟩

end Sys2Proof.Machine.Slice0Tests
end

section
/-! PROOF. The launch (spec 70_reset_and_hazards.md R290): when it answers with a state, and which state that is. -/

namespace Sys2Proof.Machine

open Sys2Proof

/-- The one thing `launch` can answer besides a refusal: the reset state with the image, the tape, the parameters and the
answers in place, exactly when `MEM_SIZE` is allowed (R8) and the image fits (D12). -/
theorem launch_eq_next_iff {params : Params} {answers : List EnvAnswer} {image input : List Byte} {s : State} :
    launch params answers image input = .next s ↔
      params.wf ∧ image.length ≤ params.memSize ∧
      s = { State.reset with mem := imageMemory 0 image, input := input, params := params, answers := answers } := by
  unfold launch
  by_cases hwf : params.wf
  · rw [if_neg (not_not_intro hwf)]
    by_cases hlong : params.memSize < image.length
    · rw [if_pos hlong]
      exact iff_of_false nofun fun ⟨_, hfit, _⟩ => hfit.not_gt hlong
    · rw [if_neg hlong, Host.Outcome.next.injEq, eq_comm]
      exact ⟨fun hs => ⟨hwf, Nat.le_of_not_lt hlong, hs⟩, fun ⟨_, _, hs⟩ => hs⟩
  · rw [if_pos hwf]
    exact iff_of_false nofun fun ⟨hallowed, _⟩ => hwf hallowed

/-- The default `MEM_SIZE` of 2^32 is within the bounds of R8. -/
theorem default_params_wf : Params.wf {} := by decide

/-- Settles O58: by the inversion of `launch`; the answers that give `State.reset` are the empty list. -/
theorem resetIsTheLaunchOfNothing : Obligations.ResetIsTheLaunchOfNothing := by
  refine ⟨fun params answers image input s h => ?_, [], ?_⟩
  · obtain ⟨-, -, rfl⟩ := launch_eq_next_iff.mp h
    exact ⟨rfl, rfl⟩
  · exact launch_eq_next_iff.mpr ⟨default_params_wf, Nat.zero_le _, rfl⟩

end Sys2Proof.Machine
end

section
/-! PROOF. The frame of a step (spec 10_state.md R16, R22, R23, R25, R31): which registers, which tape and which pc an
instruction leaves. Every claim cites `exec_next_cases`, the four things an instruction can have done. -/

namespace Sys2Proof.Machine

open Sys2Proof

/-- Settles O33: the four things an instruction can have done; only the first writes a register, and it writes `rd`. -/
theorem onlyTheDestinationRegisterChanges : Obligations.OnlyTheDestinationRegisterChanges := by
  intro i s t hsys h r hr
  obtain ⟨rd, v, next, hdest, -, -, -, rfl⟩ | ⟨next, -, -, -, -, rfl⟩ | ⟨a, l, -, -, -, -, -, -, -, rfl⟩ |
    ⟨-, -, -, -, hcall, -⟩ := exec_next_cases h
  case inl =>
    have hne : r ≠ rd := fun heq => hr (heq ▸ hdest)
    exact readReg_writeReg_of_ne s v hne
  case inr.inl => rfl
  case inr.inr.inl => rfl
  case inr.inr.inr => exact absurd hcall (by simp [hsys])

/-- Settles O37: a register other than `x0` is not the destination, so O33 keeps it; `x0` reads zero before and after. -/
theorem registerZeroIsHardwired : Obligations.RegisterZeroIsHardwired := by
  refine ⟨fun s => ⟨readReg_zero s, writeReg_zero s⟩, fun i s t hsys hdest h r => ?_⟩
  by_cases hr : r = 0
  · rw [hr, readReg_zero, readReg_zero]
  · exact onlyTheDestinationRegisterChanges i s t hsys h r (by simp [hdest, Ne.symm hr])

/-- Settles O35: a register write, a move of the pc and a store keep these fields; an answer of `Env` keeps the
parameters. -/
theorem onlySystemCallsTouchTheTape : Obligations.OnlySystemCallsTouchTheTape := by
  intro i s t h
  obtain ⟨rd, v, next, -, -, -, -, rfl⟩ | ⟨next, -, -, -, -, rfl⟩ | ⟨a, l, -, -, -, -, -, -, -, rfl⟩ |
    ⟨rd, call, u, -, hcall, -, -, hu, rfl⟩ := exec_next_cases h
  case inl => simp
  case inr.inl => simp
  case inr.inr.inl => simp
  case inr.inr.inr =>
    obtain ⟨-, hparams, -⟩ := applyAnswer_ok hu
    exact ⟨by rw [advance_params, hparams, takeAnswer_params], fun hsys => absurd hcall (by simp [hsys])⟩

/-- `pc + 4` modulo `2^32`, over naturals (10_state.md R26). -/
theorem add_four_eq_ofNat (pc : Word) : pc + 4#32 = BitVec.ofNat 32 (pc.toNat + 4) := by
  apply BitVec.eq_of_toNat_eq
  simp

/-- An instruction that leaves the pc to the machine advances it by 4. -/
theorem exec_next_pc_of_not_setsPc {i : Instr} {s t : State} (h : exec i s = .next t) (hpc : i.setsPc = false) :
    t.pc = s.pc + 4#32 := by
  obtain ⟨rd, v, next, -, -, -, hnext, rfl⟩ | ⟨next, -, -, -, hnext, rfl⟩ | ⟨a, l, -, -, -, -, -, -, -, rfl⟩ |
    ⟨rd, call, u, -, -, -, -, hu, rfl⟩ := exec_next_cases h
  case inl => exact hnext hpc
  case inr.inl => exact hnext hpc
  case inr.inr.inl => rfl
  case inr.inr.inr =>
    obtain ⟨hupc, -⟩ := applyAnswer_ok hu
    rw [advance_pc, hupc, takeAnswer_pc]

/-- A branch goes to its target or on to the next word (44_branches.md R170). -/
theorem branch_next_pc {s t : State} {taken : Bool} {i : Word} (h : s.branch taken i = .next t) :
    t.pc = s.pc + i ∨ t.pc = s.pc + 4#32 := by
  rw [branch_eq] at h
  cases h
  cases taken with
  | true => exact .inl rfl
  | false => exact .inr rfl

/-- Settles O36: each of the six branches ends in the shared `State.branch`. -/
theorem pcAdvancesByFour : Obligations.PcAdvancesByFour := by
  intro i s t h
  refine ⟨fun hpc => ?_, fun rs1 rs2 k hbranch => ?_⟩
  · rw [exec_next_pc_of_not_setsPc h hpc, add_four_eq_ofNat]
  · rcases hbranch with rfl | rfl | rfl | rfl | rfl | rfl <;> exact branch_next_pc h

end Sys2Proof.Machine
end

section
/-! PROOF. The state a launch gives (spec 10_state.md R33). -/

namespace Sys2Proof.Machine

open Sys2Proof

/-- The image lies in memory from address 0. -/
theorem readByte_imageMemory_zero_of_lt (image : List Byte) (a : Nat) (h : a < image.length) :
    readByte (imageMemory 0 image) a = image[a] := by
  simp [readByte_imageMemory, h]

/-- Above the image memory reads zero. -/
theorem readByte_imageMemory_zero_of_le (image : List Byte) (a : Nat) (h : image.length ≤ a) :
    readByte (imageMemory 0 image) a = 0#8 := by
  simp [readByte_imageMemory, h]

/-- The first word of the image, lowest byte first (20_memory.md R42, D19). -/
theorem readWord_imageMemory_zero (image : List Byte) (h : 4 ≤ image.length) :
    readWord (imageMemory 0 image) 0 = image[3] ++ image[2] ++ image[1] ++ image[0] := by
  have hbyte (k : Nat) (hk : k < 4) := readByte_imageMemory_zero_of_lt image k (by omega)
  simp only [readWord, wordOfBytes, Nat.zero_add, hbyte 0 (by decide), hbyte 1 (by decide), hbyte 2 (by decide),
    hbyte 3 (by decide)]

/-- Settles O40: `launch` answers with the reset state over the image; address 0 is aligned and exists, since
`MEM_SIZE` is at least 4 (R8). -/
theorem resetHoldsTheImage : Obligations.ResetHoldsTheImage := by
  intro params answers image input hwf hfit
  refine ⟨_, launch_eq_next_iff.mpr ⟨hwf, hfit, rfl⟩, rfl, reset_readReg,
    readByte_imageMemory_zero_of_lt image, readByte_imageMemory_zero_of_le image, fun hword => ?_, rfl⟩
  have hsize : 0 < params.memSize := by
    obtain ⟨hmin, -⟩ := hwf
    omega
  rw [← readWord_imageMemory_zero image hword]
  exact fetch_ok rfl hsize

end Sys2Proof.Machine
end

section
/-! PROOF. Noninterference of the input tape (spec 10_state.md R31, 48_system.md R246): each shared operation
commutes with a change of the tape, hence every instruction but a system call does, hence the step does. -/

namespace Sys2Proof.Machine

open Sys2Proof

/-! ## How an instruction ends, with another tape -/

/-- A register write commutes with a change of the tape. -/
theorem writeReg_withInput (s : State) (tape : List Byte) (r : Reg) (v : Word) :
    { s with input := tape }.writeReg r v = { s.writeReg r v with input := tape } := by
  unfold State.writeReg
  split <;> rfl

theorem finish_withInput (s : State) (tape : List Byte) (rd : Reg) (v : Word) :
    { s with input := tape }.finish rd v = withTape tape (s.finish rd v) := by
  unfold State.finish
  rw [writeReg_withInput]
  rfl

theorem finishLoad_withInput (s : State) (tape : List Byte) (rd : Reg) (e : Except Fault Word) :
    { s with input := tape }.finishLoad rd e = withTape tape (s.finishLoad rd e) := by
  cases e with
  | error f => rfl
  | ok v => exact finish_withInput s tape rd v

theorem branch_withInput (s : State) (tape : List Byte) (taken : Bool) (i : Word) :
    { s with input := tape }.branch taken i = withTape tape (s.branch taken i) := by
  cases taken <;> rfl

theorem jump_withInput (s : State) (tape : List Byte) (rd : Reg) (target : Word) :
    { s with input := tape }.jump rd target = withTape tape (s.jump rd target) := by
  unfold State.jump
  rw [writeReg_withInput]
  rfl

/-- The checks of an access do not see the tape. -/
theorem checkAccess_withInput (s : State) (tape : List Byte) (misaligned : Word → Fault) (n : Nat) (addr : Word) :
    { s with input := tape }.checkAccess misaligned n addr = s.checkAccess misaligned n addr := rfl

/-- What a store leaves, with another tape. -/
theorem finishStore_map_withInput (tape : List Byte) (e : Except Fault State) :
    finishStore (e.map ({ · with input := tape })) = withTape tape (finishStore e) := by
  cases e <;> rfl

theorem storeByte_withInput (s : State) (tape : List Byte) (addr : Word) (v : Byte) :
    { s with input := tape }.storeByte addr v = (s.storeByte addr v).map ({ · with input := tape }) := by
  unfold State.storeByte
  rw [checkAccess_withInput]
  cases s.checkAccess .misalignedStore 1 addr <;> rfl

theorem storeHalf_withInput (s : State) (tape : List Byte) (addr : Word) (v : BitVec 16) :
    { s with input := tape }.storeHalf addr v = (s.storeHalf addr v).map ({ · with input := tape }) := by
  unfold State.storeHalf
  rw [checkAccess_withInput]
  cases s.checkAccess .misalignedStore 2 addr <;> rfl

theorem storeWord_withInput (s : State) (tape : List Byte) (addr : Word) (v : Word) :
    { s with input := tape }.storeWord addr v = (s.storeWord addr v).map ({ · with input := tape }) := by
  unfold State.storeWord
  rw [checkAccess_withInput]
  cases s.checkAccess .misalignedStore 4 addr <;> rfl

/-! ## An instruction and a step, with another tape -/

/-- Only a system call reads or writes the tape: any other instruction commutes with a change of it. -/
theorem exec_withInput {i : Instr} (hsys : i.isSystemCall = false) (s : State) (tape : List Byte) :
    exec i { s with input := tape } = withTape tape (exec i s) := by
  cases i with
  | lui | auipc | add | sub | slt | sltu | sll | srl | sra | xor | and | or | addi | slti | sltui | slli | srli | srai
  | xori | andi | ori => exact finish_withInput s tape _ _
  | beq | bne | blt | bge | bltu | bgeu => exact branch_withInput s tape _ _
  | lb | lh | lw | lbu | lhu => exact finishLoad_withInput s tape _ _
  | sb => exact (congrArg finishStore (storeByte_withInput s tape _ _)).trans (finishStore_map_withInput tape _)
  | sh => exact (congrArg finishStore (storeHalf_withInput s tape _ _)).trans (finishStore_map_withInput tape _)
  | sw => exact (congrArg finishStore (storeWord_withInput s tape _ _)).trans (finishStore_map_withInput tape _)
  | jal | jalr => exact jump_withInput s tape _ _
  | fence | unimp => rfl
  | ecall | ebreak => exact absurd hsys (by simp [Instr.isSystemCall])

theorem step_of_fetch_error {s : State} {f : Fault} (hfetch : s.fetch = .error f) : step s = .fault f := by
  simp [step, hfetch, raise]

theorem step_of_decode_error {s : State} {w : Word} {e : DecodeError} (hfetch : s.fetch = .ok w)
    (hdecode : decode s.params.loadUnsigned w = .error e) : step s = .fault (.illegalInstruction s.pc w) := by
  simp [step, hfetch, hdecode, raise]

theorem step_of_decode_ok {s : State} {w : Word} {i : Instr} (hfetch : s.fetch = .ok w)
    (hdecode : decode s.params.loadUnsigned w = .ok i) : step s = exec i s := by
  simp [step, hfetch, hdecode]

theorem nextInstr_of_decode_ok {s : State} {w : Word} {i : Instr} (hfetch : s.fetch = .ok w)
    (hdecode : decode s.params.loadUnsigned w = .ok i) : s.nextInstr = some i := by
  simp [State.nextInstr, hfetch, hdecode, Except.toOption]

/-- Settles O42: fetch and decode do not see the tape, and the instruction they give is no system call. -/
theorem theTapeIsSecretWithoutSystemCalls : Obligations.TheTapeIsSecretWithoutSystemCalls := by
  intro s tape hnext
  have hfetchTape : { s with input := tape }.fetch = s.fetch := rfl
  obtain ⟨f, hfetch, hstep⟩ | ⟨w, e, hfetch, hdecode, hstep⟩ | ⟨w, i, hfetch, hdecode, hstep⟩ := step_cases s
  case inl =>
    rw [hstep]
    exact step_of_fetch_error (hfetchTape.trans hfetch)
  case inr.inl =>
    rw [hstep]
    exact step_of_decode_error (hfetchTape.trans hfetch) hdecode
  case inr.inr =>
    have hsys := hnext i (nextInstr_of_decode_ok hfetch hdecode)
    rw [hstep, ← exec_withInput hsys]
    exact step_of_decode_ok (hfetchTape.trans hfetch) hdecode

end Sys2Proof.Machine
end

section
/-! PROOF. Memory seen at different widths (spec 20_memory.md R41, R43): the bytes of a word and of a halfword, and what
an access of one width reads after a write of another. -/

namespace Sys2Proof.Machine

open Sys2Proof

/-! ## The bytes of a word and of a halfword -/

/-- A word is put together from its own four bytes. -/
theorem wordOfBytes_extractLsb' (w : Word) :
    wordOfBytes (w.extractLsb' 0 8) (w.extractLsb' 8 8) (w.extractLsb' 16 8) (w.extractLsb' 24 8) = w := by
  have hhigh : w.extractLsb' 24 8 ++ w.extractLsb' 16 8 = w.extractLsb' 16 16 :=
    BitVec.extractLsb'_append_extractLsb'_eq_extractLsb' rfl
  have hupper : w.extractLsb' 16 16 ++ w.extractLsb' 8 8 = w.extractLsb' 8 24 :=
    BitVec.extractLsb'_append_extractLsb'_eq_extractLsb' rfl
  have hall : w.extractLsb' 8 24 ++ w.extractLsb' 0 8 = w.extractLsb' 0 32 :=
    BitVec.extractLsb'_append_extractLsb'_eq_extractLsb' rfl
  rw [wordOfBytes, hhigh, hupper, hall, BitVec.extractLsb'_eq_self]

/-- The bytes of a word put together from two halfwords are the bytes of the lower one, then of the higher one. -/
theorem bytesOfWord_append (h0 h1 : BitVec 16) :
    bytesOfWord (h1 ++ h0) = [h0.extractLsb' 0 8, h0.extractLsb' 8 8, h1.extractLsb' 0 8, h1.extractLsb' 8 8] := by
  have hlow (k : Nat) (hk : k + 8 ≤ 16) : (h1 ++ h0 : Word).extractLsb' k 8 = h0.extractLsb' k 8 :=
    BitVec.extractLsb'_append_eq_of_add_le hk
  have hhigh (k : Nat) (hk : 16 ≤ k) : (h1 ++ h0 : Word).extractLsb' k 8 = h1.extractLsb' (k - 16) 8 :=
    BitVec.extractLsb'_append_eq_of_le hk
  rw [bytesOfWord, hlow 0 (by decide), hlow 8 (by decide), hhigh 16 (by decide), hhigh 24 (by decide)]

/-- The bytes of a word put together from four bytes are those bytes. -/
theorem bytesOfWord_wordOfBytes (b0 b1 b2 b3 : Byte) : bytesOfWord (wordOfBytes b0 b1 b2 b3) = [b0, b1, b2, b3] := by
  have hhalves : wordOfBytes b0 b1 b2 b3 = (b3 ++ b2 : BitVec 16) ++ (b1 ++ b0 : BitVec 16) := BitVec.append_assoc
  have hlow (h l : Byte) : (h ++ l : BitVec 16).extractLsb' 0 8 = l := BitVec.extractLsb'_append_eq_right
  have hhigh (h l : Byte) : (h ++ l : BitVec 16).extractLsb' 8 8 = h := BitVec.extractLsb'_append_eq_left
  rw [hhalves, bytesOfWord_append, hlow, hhigh, hlow, hhigh]

/-- A halfword is put together from its own two bytes. -/
theorem extractLsb'_append_extractLsb'_half (h : BitVec 16) : h.extractLsb' 8 8 ++ h.extractLsb' 0 8 = h :=
  (BitVec.extractLsb'_append_extractLsb'_eq_extractLsb' rfl).trans BitVec.extractLsb'_eq_self

/-! ## A byte after a wider write (R41, R47) -/

theorem readByte_writeWord {m : Memory} (hm : m.wf) (a : Nat) (w : Word) (k : Nat) (hk : k < 4) :
    readByte (writeWord m a w) (a + k) = (bytesOfWord w)[k] :=
  readByte_writeBytes_stored hm (bytesOfWord w) a k hk

theorem readByte_writeHalf {m : Memory} (hm : m.wf) (a : Nat) (h : BitVec 16) (k : Nat) (hk : k < 2) :
    readByte (writeHalf m a h) (a + k) = [h.extractLsb' 0 8, h.extractLsb' 8 8][k] :=
  readByte_writeBytes_stored hm [h.extractLsb' 0 8, h.extractLsb' 8 8] a k hk

/-- Settles O47: a byte of a written word or halfword is a byte of the stored list, and the bytes of what a wide read
puts together are the bytes it read. -/
theorem wordsAreLittleEndian : Obligations.WordsAreLittleEndian := by
  refine ⟨fun m a w hm => ?_, fun m a h hm => ?_, fun m a => ?_⟩
  · have hbyte := readByte_writeWord hm a w
    exact ⟨hbyte 0 (by decide), hbyte 1 (by decide), hbyte 2 (by decide), hbyte 3 (by decide)⟩
  · have hbyte := readByte_writeHalf hm a h
    exact ⟨hbyte 0 (by decide), hbyte 1 (by decide)⟩
  · have hword := bytesOfWord_wordOfBytes (readByte m a) (readByte m (a + 1)) (readByte m (a + 2)) (readByte m (a + 3))
    simp only [bytesOfWord, List.cons.injEq] at hword
    obtain ⟨h0, h1, h2, h3, -⟩ := hword
    exact ⟨h0, h1, h2, h3, BitVec.extractLsb'_append_eq_right, BitVec.extractLsb'_append_eq_left⟩

/-! ## A wider read after a write (R43) -/

@[simp] theorem readWord_writeWord {m : Memory} (hm : m.wf) (a : Nat) (w : Word) :
    readWord (writeWord m a w) a = w := by
  obtain ⟨hword, -⟩ := wordsAreLittleEndian
  obtain ⟨h0, h1, h2, h3⟩ := hword m a w hm
  rw [readWord, h0, h1, h2, h3, wordOfBytes_extractLsb']

@[simp] theorem readHalf_writeHalf {m : Memory} (hm : m.wf) (a : Nat) (h : BitVec 16) :
    readHalf (writeHalf m a h) a = h := by
  obtain ⟨-, hhalf, -⟩ := wordsAreLittleEndian
  obtain ⟨h0, h1⟩ := hhalf m a h hm
  rw [readHalf, h0, h1, extractLsb'_append_extractLsb'_half]

/-- Two adjacent halfwords written one after the other are the word they make up. -/
theorem writeHalf_writeHalf (m : Memory) (a : Nat) (h0 h1 : BitVec 16) :
    writeHalf (writeHalf m a h0) (a + 2) h1 = writeWord m a (h1 ++ h0) := by
  rw [writeWord, bytesOfWord_append]
  rfl

/-- Four adjacent bytes written one after the other are the word they make up. -/
theorem writeByte_writeByte_writeByte_writeByte (m : Memory) (a : Nat) (b0 b1 b2 b3 : Byte) :
    writeByte (writeByte (writeByte (writeByte m a b0) (a + 1) b1) (a + 2) b2) (a + 3) b3 =
      writeWord m a (wordOfBytes b0 b1 b2 b3) := by
  rw [writeWord, bytesOfWord_wordOfBytes]
  rfl

/-- Settles O48: narrow reads of a written word put its bytes together, and narrow writes side by side are one word
write. -/
theorem accessesOfDifferentWidthsSeeTheSameBytes : Obligations.AccessesOfDifferentWidthsSeeTheSameBytes := by
  refine fun m a hm => ⟨fun w => ?_, fun h0 h1 => ?_, fun b0 b1 b2 b3 => ?_⟩
  · obtain ⟨hword, -⟩ := wordsAreLittleEndian
    obtain ⟨h0, h1, h2, h3⟩ := hword m a w hm
    refine ⟨h0, h1, h2, h3, ?_, ?_, readWord_writeWord hm a w⟩
    · rw [readHalf, h0, h1]
      exact BitVec.extractLsb'_append_extractLsb'_eq_extractLsb' rfl
    · rw [readHalf, h2, h3]
      exact BitVec.extractLsb'_append_extractLsb'_eq_extractLsb' rfl
  · rw [writeHalf_writeHalf, readWord_writeWord hm]
  · rw [writeByte_writeByte_writeByte_writeByte, readWord_writeWord hm]
    rfl

end Sys2Proof.Machine
end

section
/-! PROOF. Every step keeps the invariant (spec 20_memory.md R52, 48_system.md R246, 00_scope.md R8): an aligned store
does not straddle `MEM_SIZE`, and an answer of `Env` keeps the domain of memory. -/

namespace Sys2Proof.Machine

open Sys2Proof

/-- R52: an aligned access that begins below `MEM_SIZE` ends there too, because its width divides `MEM_SIZE`. -/
theorem add_le_of_aligned {a n size : Nat} (hdvd : n ∣ size) (halign : a % n = 0) (hlt : a < size) : a + n ≤ size := by
  obtain ⟨q, rfl⟩ := hdvd
  obtain ⟨p, rfl⟩ := Nat.dvd_of_mod_eq_zero halign
  exact Nat.mul_le_mul_left n (Nat.lt_of_mul_lt_mul_left hlt)

/-- The invariant sees only the parameters and the memory of a state. -/
theorem inv_of_eq {s t : State} (hparams : t.params = s.params) (hmem : t.mem = s.mem) (hs : s.Inv) : t.Inv := by
  rwa [State.Inv, hparams, hmem]

/-- An aligned store of 1, 2 or 4 bytes at an address that exists keeps the invariant. -/
theorem setMem_writeBytes_inv {s : State} (hs : s.Inv) {a : Nat} {l : List Byte}
    (hwidth : l.length = 1 ∨ l.length = 2 ∨ l.length = 4) (halign : a % l.length = 0) (hlt : a < s.params.memSize) :
    (s.setMem (writeBytes s.mem a l)).Inv := by
  obtain ⟨hparams, hwf, hwithin⟩ := hs
  have ⟨_, _, hsize⟩ := hparams
  have hdvd : l.length ∣ s.params.memSize := by
    rcases hwidth with h | h | h <;> rw [h] <;> omega
  exact ⟨hparams, writeBytes_wf l hwf a, writeBytes_within l hwithin a (add_le_of_aligned hdvd halign hlt)⟩

/-- What an answer of `Env` leaves meets the invariant where the state before it does. -/
theorem applyAnswer_inv {s t : State} {rd : Reg} {a : EnvAnswer} (hs : s.Inv) (h : s.applyAnswer rd a = .ok t) :
    t.Inv := by
  obtain ⟨hparams, hwf, hwithin⟩ := hs
  obtain ⟨-, htparams, htwf, htwithin, -⟩ := applyAnswer_ok h
  rw [State.Inv, htparams]
  exact ⟨hparams, htwf hwf, htwithin hwithin⟩

/-- Every instruction keeps the invariant. -/
theorem exec_inv {i : Instr} {s t : State} (hs : s.Inv) (h : exec i s = .next t) : t.Inv := by
  obtain ⟨rd, v, next, -, -, -, -, rfl⟩ | ⟨next, -, -, -, -, rfl⟩ | ⟨a, l, -, -, -, -, hwidth, halign, hlt, rfl⟩ |
    ⟨rd, call, u, -, -, -, -, hu, rfl⟩ := exec_next_cases h
  case inl => exact inv_of_eq (by simp) (by simp) hs
  case inr.inl => exact hs
  case inr.inr.inl => exact setMem_writeBytes_inv hs hwidth halign hlt
  case inr.inr.inr =>
    have htaken : (s.takeAnswer call rd).2.Inv := inv_of_eq (takeAnswer_params ..) (takeAnswer_mem ..) hs
    exact (applyAnswer_inv htaken hu : u.Inv)

/-- Settles O38: a step that gives a next state executed an instruction, and every instruction keeps the invariant. -/
theorem stepKeepsTheInvariant : Obligations.StepKeepsTheInvariant := by
  intro s t hs h
  obtain ⟨w, i, -, -, hexec⟩ := step_next h
  exact exec_inv hs hexec

end Sys2Proof.Machine
end

section
/-! PROOF. What stores and loads do to memory (spec 20_memory.md R46, R47, R48, R52, R55, R58): when a store completes
and which state it gives, which bytes change, and what the next load and the next fetch see. -/

namespace Sys2Proof.Machine

open Sys2Proof

/-! ## When a store completes (46_stores.md R210) -/

theorem finishStore_eq_next {e : Except Fault State} {t : State} :
    finishStore e = .next t ↔ ∃ u, e = .ok u ∧ t = u.advance := by
  cases e <;> simp [finishStore, raise, eq_comm]

theorem storeByte_eq_ok {s u : State} {a : Word} {v : Byte} :
    s.storeByte a v = .ok u ↔
      s.checkAccess .misalignedStore 1 a = none ∧ u = s.setMem (writeByte s.mem a.toNat v) := by
  unfold State.storeByte
  cases s.checkAccess .misalignedStore 1 a <;> simp [eq_comm]

theorem storeHalf_eq_ok {s u : State} {a : Word} {v : BitVec 16} :
    s.storeHalf a v = .ok u ↔
      s.checkAccess .misalignedStore 2 a = none ∧ u = s.setMem (writeHalf s.mem a.toNat v) := by
  unfold State.storeHalf
  cases s.checkAccess .misalignedStore 2 a <;> simp [eq_comm]

theorem storeWord_eq_ok {s u : State} {a : Word} {v : Word} :
    s.storeWord a v = .ok u ↔
      s.checkAccess .misalignedStore 4 a = none ∧ u = s.setMem (writeWord s.mem a.toNat v) := by
  unfold State.storeWord
  cases s.checkAccess .misalignedStore 4 a <;> simp [eq_comm]

/-! ## Each store in a given state: which state it gives, and what a completed one did (R211, R212, R213) -/

theorem exec_sb_eq_next {rs1 rs2 : Reg} {i : Word} {s : State} (hlt : (s.readReg rs1 + i).toNat < s.params.memSize) :
    exec (.sb rs1 rs2 i) s =
      .next (s.setMem (writeByte s.mem (s.readReg rs1 + i).toNat (lowByte (s.readReg rs2)))).advance :=
  congrArg finishStore (storeByte_ok hlt _)

theorem exec_sh_eq_next {rs1 rs2 : Reg} {i : Word} {s : State} (halign : (s.readReg rs1 + i).toNat % 2 = 0)
    (hlt : (s.readReg rs1 + i).toNat < s.params.memSize) :
    exec (.sh rs1 rs2 i) s =
      .next (s.setMem (writeHalf s.mem (s.readReg rs1 + i).toNat (lowHalf (s.readReg rs2)))).advance :=
  congrArg finishStore (storeHalf_ok halign hlt _)

theorem exec_sw_eq_next {rs1 rs2 : Reg} {i : Word} {s : State} (halign : (s.readReg rs1 + i).toNat % 4 = 0)
    (hlt : (s.readReg rs1 + i).toNat < s.params.memSize) :
    exec (.sw rs1 rs2 i) s =
      .next (s.setMem (writeWord s.mem (s.readReg rs1 + i).toNat (s.readReg rs2))).advance :=
  congrArg finishStore (storeWord_ok halign hlt _)

theorem exec_sb_storesBytes {rs1 rs2 : Reg} {i : Word} {s t : State} (hm : s.mem.wf)
    (h : exec (.sb rs1 rs2 i) s = .next t) :
    StoresBytes s t (s.readReg rs1 + i).toNat [lowByte (s.readReg rs2)] := by
  obtain ⟨u, hu, rfl⟩ := finishStore_eq_next.mp h
  obtain ⟨-, rfl⟩ := storeByte_eq_ok.mp hu
  exact writeBytes_storesBytes hm _ [lowByte (s.readReg rs2)]

theorem exec_sh_storesBytes {rs1 rs2 : Reg} {i : Word} {s t : State} (hm : s.mem.wf)
    (h : exec (.sh rs1 rs2 i) s = .next t) :
    StoresBytes s t (s.readReg rs1 + i).toNat
      [(lowHalf (s.readReg rs2)).extractLsb' 0 8, (lowHalf (s.readReg rs2)).extractLsb' 8 8] := by
  obtain ⟨u, hu, rfl⟩ := finishStore_eq_next.mp h
  obtain ⟨-, rfl⟩ := storeHalf_eq_ok.mp hu
  exact writeBytes_storesBytes hm _ _

theorem exec_sw_storesBytes {rs1 rs2 : Reg} {i : Word} {s t : State} (hm : s.mem.wf)
    (h : exec (.sw rs1 rs2 i) s = .next t) :
    StoresBytes s t (s.readReg rs1 + i).toNat (bytesOfWord (s.readReg rs2)) := by
  obtain ⟨u, hu, rfl⟩ := finishStore_eq_next.mp h
  obtain ⟨-, rfl⟩ := storeWord_eq_ok.mp hu
  exact writeBytes_storesBytes hm _ _

/-! ## What changes memory -/

/-- An instruction that is no store and no system call leaves the memory as it is. -/
theorem exec_next_mem_eq {i : Instr} {s t : State} (hsys : i.isSystemCall = false) (hstore : i.isStore = false)
    (h : exec i s = .next t) : t.mem = s.mem := by
  obtain ⟨rd, v, next, -, -, -, -, rfl⟩ | ⟨next, -, -, -, -, rfl⟩ | ⟨-, -, -, -, hisStore, -⟩ |
    ⟨-, -, -, -, hcall, -⟩ := exec_next_cases h
  case inl => rw [setPc_mem, writeReg_mem]
  case inr.inl => rfl
  case inr.inr.inl => exact absurd hisStore (by simp [hstore])
  case inr.inr.inr => exact absurd hcall (by simp [hsys])

/-- Settles O34: the memory itself is kept by what is no store and no system call, and each store changes no byte
outside the ones it stores. -/
theorem onlyStoresAndSystemCallsChangeMemory : Obligations.OnlyStoresAndSystemCallsChangeMemory := by
  intro i s t hs hsys h
  obtain ⟨-, hm, -⟩ := hs
  refine ⟨fun hstore a => ?_, ?_, ?_, ?_⟩
  · rw [exec_next_mem_eq hsys hstore h]
  · rintro rs1 rs2 k rfl a ha
    exact (exec_sb_storesBytes hm h).outside a (Nat.lt_or_gt_of_ne ha)
  · rintro rs1 rs2 k rfl a ha
    exact (exec_sh_storesBytes hm h).outside a ha
  · rintro rs1 rs2 k rfl a ha
    exact (exec_sw_storesBytes hm h).outside a ha

/-! ## A byte access outside memory (R52) -/

/-- A byte access is always aligned, so outside memory the one fault it raises is the one of R52. -/
theorem checkAccess_one_of_le {s : State} {a : Word} (misaligned : Word → Fault) (h : s.params.memSize ≤ a.toNat) :
    s.checkAccess misaligned 1 a = some (.accessOutOfRange a) :=
  (checkAccess_eq_some s misaligned 1 a _).mpr (.inr ⟨Nat.mod_one _, h, rfl⟩)

/-- Settles O28: the access fails its check, and a load or a store that fails ends with that fault. -/
theorem byteAccessOutsideMemoryFaults : Obligations.ByteAccessOutsideMemoryFaults := by
  intro rd rs1 rs2 i s h
  have hload : s.loadByte (s.readReg rs1 + i) = .error (.accessOutOfRange (s.readReg rs1 + i)) :=
    loadByte_eq_error.mpr (checkAccess_one_of_le _ h)
  have hstore : s.storeByte (s.readReg rs1 + i) (lowByte (s.readReg rs2)) =
      .error (.accessOutOfRange (s.readReg rs1 + i)) := storeByte_eq_error.mpr (checkAccess_one_of_le _ h)
  exact ⟨finishLoad_eq_fault.mpr (congrArg (Except.map signExtendByte) hload),
    finishLoad_eq_fault.mpr (congrArg (Except.map zeroExtendByte) hload), finishStore_eq_fault.mpr hstore⟩

/-! ## A load after a store (R55) -/

theorem exec_lbu_eq_next {rd rs1 : Reg} {i : Word} {s : State} (hlt : (s.readReg rs1 + i).toNat < s.params.memSize) :
    exec (.lbu rd rs1 i) s =
      .next ((s.writeReg rd (zeroExtendByte (readByte s.mem (s.readReg rs1 + i).toNat))).setPc (s.pc + 4#32)) := by
  simp only [exec, execLbu, State.effectiveAddress, loadByte_ok hlt, Except.map, State.finishLoad, finish_eq]

theorem exec_lhu_eq_next {rd rs1 : Reg} {i : Word} {s : State} (halign : (s.readReg rs1 + i).toNat % 2 = 0)
    (hlt : (s.readReg rs1 + i).toNat < s.params.memSize) :
    exec (.lhu rd rs1 i) s =
      .next ((s.writeReg rd (zeroExtendHalf (readHalf s.mem (s.readReg rs1 + i).toNat))).setPc (s.pc + 4#32)) := by
  simp only [exec, execLhu, State.effectiveAddress, loadHalf_ok halign hlt, Except.map, State.finishLoad, finish_eq]

theorem exec_lw_eq_next {rd rs1 : Reg} {i : Word} {s : State} (halign : (s.readReg rs1 + i).toNat % 4 = 0)
    (hlt : (s.readReg rs1 + i).toNat < s.params.memSize) :
    exec (.lw rd rs1 i) s =
      .next ((s.writeReg rd (readWord s.mem (s.readReg rs1 + i).toNat)).setPc (s.pc + 4#32)) := by
  simp only [exec, execLw, State.effectiveAddress, loadWord_ok halign hlt, State.finishLoad, finish_eq]

/-- A register other than `x0` holds the value an instruction ended by writing to it. -/
theorem setPc_writeReg_readReg {s : State} {rd : Reg} (hrd : rd ≠ 0) (v next : Word) :
    ((s.writeReg rd v).setPc next).readReg rd = v :=
  (writeReg_writesRegister s rd v next).dest.trans (if_neg hrd)

theorem readByte_writeByte_self {m : Memory} (hm : m.wf) (a : Nat) (b : Byte) : readByte (writeByte m a b) a = b :=
  (readByte_writeByte m hm a b a).trans (if_pos rfl)

/-- Settles O49: the store keeps the base register and the parameters, so the load makes the same access, and it reads
what was written. -/
theorem aLoadSeesTheLatestStore : Obligations.ALoadSeesTheLatestStore := by
  intro rd rs1 rs2 i s hs hlt hrd
  obtain ⟨-, hm, -⟩ := hs
  refine ⟨fun halign => ?_, fun halign => ?_, ?_⟩
  · refine ⟨_, _, exec_sw_eq_next halign hlt, exec_lw_eq_next halign hlt, ?_⟩
    exact (setPc_writeReg_readReg hrd _ _).trans (readWord_writeWord hm _ _)
  · refine ⟨_, _, exec_sh_eq_next halign hlt, exec_lhu_eq_next halign hlt, ?_⟩
    exact (setPc_writeReg_readReg hrd _ _).trans (congrArg zeroExtendHalf (readHalf_writeHalf hm _ _))
  · refine ⟨_, _, exec_sb_eq_next hlt, exec_lbu_eq_next hlt, ?_⟩
    exact (setPc_writeReg_readReg hrd _ _).trans (congrArg zeroExtendByte (readByte_writeByte_self hm _ _))

/-! ## A fetch after a store (R48, R58) -/

/-- A fetch reads the word that was written at the pc. -/
theorem fetch_setMem_writeWord {s : State} (hm : s.mem.wf) (halign : s.pc.toNat % 4 = 0)
    (hlt : s.pc.toNat < s.params.memSize) (w : Word) :
    (s.setMem (writeWord s.mem s.pc.toNat w)).fetch = .ok w := by
  have hfetch := fetch_ok (s := s.setMem (writeWord s.mem s.pc.toNat w)) halign hlt
  rwa [setMem_mem, setMem_pc, readWord_writeWord hm] at hfetch

/-- Settles O46: the state after the store is the advanced state with the word written at its pc, so the fetch reads
it. -/
theorem aStoreIsSeenByTheNextFetch : Obligations.AStoreIsSeenByTheNextFetch := by
  intro rs1 rs2 i s j hs haddr halign hlt hdecode
  obtain ⟨-, hm, -⟩ := hs
  refine ⟨_, exec_sw_eq_next (haddr ▸ halign) (haddr ▸ hlt), ?_⟩
  rw [haddr]
  have hfetch : (s.advance.setMem (writeWord s.mem s.advance.pc.toNat (s.readReg rs2))).fetch = .ok (s.readReg rs2) :=
    fetch_setMem_writeWord (s := s.advance) hm halign hlt _
  exact step_of_decode_ok hfetch hdecode

/-- Placing a word is writing it at the pc. -/
theorem withFetchWord_toNat (s : State) (w : Word) :
    s.withFetchWord 32 w.toNat = s.setMem (writeWord s.mem s.pc.toNat w) := by
  rw [State.withFetchWord, Nat.mod_eq_of_lt w.isLt, BitVec.ofNat_toNat, BitVec.setWidth_eq]

/-- Settles O56: placing a word is a word write at the pc, which the fetch reads and which keeps the invariant. -/
theorem aPlacedWordRunsNext : Obligations.APlacedWordRunsNext := by
  intro s w i hs halign hlt hdecode
  have ⟨_, hm, _⟩ := hs
  rw [withFetchWord_toNat]
  exact ⟨step_of_decode_ok (fetch_setMem_writeWord hm halign hlt w) hdecode,
    fun a ha => readByte_writeBytes_outside hm (bytesOfWord w) _ a ha,
    setMem_writeBytes_inv (l := bytesOfWord w) hs (.inr (.inr rfl)) halign hlt, rfl⟩

end Sys2Proof.Machine
end

section
/-! PROOF. Encoding and decoding are inverse (spec 30_encoding.md R71 to R82): the encoding of an instruction selects the
row that reads it back, and each row reads an instruction that encodes to the word it accepted. -/

namespace Sys2Proof.Machine

open Sys2Proof

/-! ## From an instruction to its word and back (R72, R80) -/

theorem encodeSelectsRow : (i : Instr) → Laws.EncodeSelectsRow.Statement i
  | .lui rd i => Laws.EncodeSelectsRow.lui rd i
  | .auipc rd i => Laws.EncodeSelectsRow.auipc rd i
  | .jal rd i => Laws.EncodeSelectsRow.jal rd i
  | .jalr rd rs1 i => Laws.EncodeSelectsRow.jalr rd rs1 i
  | .beq rs1 rs2 i => Laws.EncodeSelectsRow.beq rs1 rs2 i
  | .bne rs1 rs2 i => Laws.EncodeSelectsRow.bne rs1 rs2 i
  | .blt rs1 rs2 i => Laws.EncodeSelectsRow.blt rs1 rs2 i
  | .bge rs1 rs2 i => Laws.EncodeSelectsRow.bge rs1 rs2 i
  | .bltu rs1 rs2 i => Laws.EncodeSelectsRow.bltu rs1 rs2 i
  | .bgeu rs1 rs2 i => Laws.EncodeSelectsRow.bgeu rs1 rs2 i
  | .lb rd rs1 i => Laws.EncodeSelectsRow.lb rd rs1 i
  | .lh rd rs1 i => Laws.EncodeSelectsRow.lh rd rs1 i
  | .lw rd rs1 i => Laws.EncodeSelectsRow.lw rd rs1 i
  | .lbu rd rs1 i => Laws.EncodeSelectsRow.lbu rd rs1 i
  | .lhu rd rs1 i => Laws.EncodeSelectsRow.lhu rd rs1 i
  | .sb rs1 rs2 i => Laws.EncodeSelectsRow.sb rs1 rs2 i
  | .sh rs1 rs2 i => Laws.EncodeSelectsRow.sh rs1 rs2 i
  | .sw rs1 rs2 i => Laws.EncodeSelectsRow.sw rs1 rs2 i
  | .addi rd rs1 i => Laws.EncodeSelectsRow.addi rd rs1 i
  | .slli rd rs1 i => Laws.EncodeSelectsRow.slli rd rs1 i
  | .slti rd rs1 i => Laws.EncodeSelectsRow.slti rd rs1 i
  | .sltui rd rs1 i => Laws.EncodeSelectsRow.sltui rd rs1 i
  | .xori rd rs1 i => Laws.EncodeSelectsRow.xori rd rs1 i
  | .srli rd rs1 i => Laws.EncodeSelectsRow.srli rd rs1 i
  | .srai rd rs1 i => Laws.EncodeSelectsRow.srai rd rs1 i
  | .ori rd rs1 i => Laws.EncodeSelectsRow.ori rd rs1 i
  | .andi rd rs1 i => Laws.EncodeSelectsRow.andi rd rs1 i
  | .add rd rs1 rs2 => Laws.EncodeSelectsRow.add rd rs1 rs2
  | .sub rd rs1 rs2 => Laws.EncodeSelectsRow.sub rd rs1 rs2
  | .sll rd rs1 rs2 => Laws.EncodeSelectsRow.sll rd rs1 rs2
  | .slt rd rs1 rs2 => Laws.EncodeSelectsRow.slt rd rs1 rs2
  | .sltu rd rs1 rs2 => Laws.EncodeSelectsRow.sltu rd rs1 rs2
  | .xor rd rs1 rs2 => Laws.EncodeSelectsRow.xor rd rs1 rs2
  | .srl rd rs1 rs2 => Laws.EncodeSelectsRow.srl rd rs1 rs2
  | .sra rd rs1 rs2 => Laws.EncodeSelectsRow.sra rd rs1 rs2
  | .or rd rs1 rs2 => Laws.EncodeSelectsRow.or rd rs1 rs2
  | .and rd rs1 rs2 => Laws.EncodeSelectsRow.and rd rs1 rs2
  | .fence => Laws.EncodeSelectsRow.fence
  | .ecall rd => Laws.EncodeSelectsRow.ecall rd
  | .ebreak rd => Laws.EncodeSelectsRow.ebreak rd
  | .unimp => Laws.EncodeSelectsRow.unimp

/-- Settles O50: the row the encoding selects is the one the decoder finds, since rows are disjoint. -/
theorem decodeOfEncodeIsTheInstruction : Obligations.DecodeOfEncodeIsTheInstruction := by
  intro enc i hwf
  obtain ⟨r, hr, hmatch, hreads⟩ := encodeSelectsRow i enc
  rw [decode_of_accepts hr hmatch, hreads hwf]

/-! ## From a word to its instruction and back: one lemma per format (R73 to R80) -/

/-- What O51 says of the words that one row accepts. -/
def RowRoundTrips (enc : LoadUnsignedEncoding) (r : Row) : Prop :=
  ∀ w, w &&& r.mask = r.pattern → (r.operands w).wf = true ∧
    (r.operands w ≠ .fence → r.operands w ≠ .unimp → encode enc (r.operands w) = w)

theorem formatU_roundTrips {enc : LoadUnsignedEncoding} {p : Word} {instr : Reg → Word → Instr}
    (hwf : ∀ rd i, (instr rd i).wf = fitsU i)
    (henc : ∀ rd i, encode enc (instr rd i) = encodeU i rd (p.extractLsb' 0 7)) :
    RowRoundTrips enc ⟨0x0000007F#32, p, fun w => instr (rdField w) (immU w)⟩ := by
  intro w h
  exact ⟨(hwf _ _).trans (fitsU_immU w), fun _ _ => (henc _ _).trans (encodeU_of_fields (fields_of_opcodeMask h))⟩

theorem formatJ_roundTrips {enc : LoadUnsignedEncoding} {p : Word} {instr : Reg → Word → Instr}
    (hwf : ∀ rd i, (instr rd i).wf = fitsJ i)
    (henc : ∀ rd i, encode enc (instr rd i) = encodeJ i rd (p.extractLsb' 0 7)) :
    RowRoundTrips enc ⟨0x0000007F#32, p, fun w => instr (rdField w) (immJ w)⟩ := by
  intro w h
  exact ⟨(hwf _ _).trans (fitsJ_immJ w), fun _ _ => (henc _ _).trans (encodeJ_of_fields (fields_of_opcodeMask h))⟩

theorem formatI_roundTrips {enc : LoadUnsignedEncoding} {p : Word} {instr : Reg → Reg → Word → Instr}
    (hwf : ∀ rd rs1 i, (instr rd rs1 i).wf = fitsI i)
    (henc : ∀ rd rs1 i, encode enc (instr rd rs1 i) = encodeI i rs1 (p.extractLsb' 12 3) rd (p.extractLsb' 0 7)) :
    RowRoundTrips enc ⟨0x0000707F#32, p, fun w => instr (rdField w) (rs1Field w) (immI w)⟩ := by
  intro w h
  obtain ⟨hop, hf3⟩ := fields_of_funct3Mask h
  exact ⟨(hwf _ _ _).trans (fitsI_signExtend _), fun _ _ => (henc _ _ _).trans (encodeI_of_fields hop hf3)⟩

theorem formatISH_roundTrips {enc : LoadUnsignedEncoding} {p : Word} {instr : Reg → Reg → Word → Instr}
    (hwf : ∀ rd rs1 i, (instr rd rs1 i).wf = fitsSH i)
    (henc : ∀ rd rs1 i, encode enc (instr rd rs1 i) =
      encodeISH (p.extractLsb' 25 7) i rs1 (p.extractLsb' 12 3) rd (p.extractLsb' 0 7)) :
    RowRoundTrips enc ⟨0xFE00707F#32, p, fun w => instr (rdField w) (rs1Field w) (immSH w)⟩ := by
  intro w h
  obtain ⟨hop, hf3, hf7⟩ := fields_of_funct7Mask h
  exact ⟨(hwf _ _ _).trans (fitsSH_immSH w), fun _ _ => (henc _ _ _).trans (encodeISH_of_fields hop hf3 hf7)⟩

theorem formatB_roundTrips {enc : LoadUnsignedEncoding} {p : Word} {instr : Reg → Reg → Word → Instr}
    (hwf : ∀ rs1 rs2 i, (instr rs1 rs2 i).wf = fitsB i)
    (henc : ∀ rs1 rs2 i, encode enc (instr rs1 rs2 i) =
      encodeB i rs2 rs1 (p.extractLsb' 12 3) (p.extractLsb' 0 7)) :
    RowRoundTrips enc ⟨0x0000707F#32, p, fun w => instr (rs1Field w) (rs2Field w) (immB w)⟩ := by
  intro w h
  obtain ⟨hop, hf3⟩ := fields_of_funct3Mask h
  exact ⟨(hwf _ _ _).trans (fitsB_immB w), fun _ _ => (henc _ _ _).trans (encodeB_of_fields hop hf3)⟩

theorem formatS_roundTrips {enc : LoadUnsignedEncoding} {p : Word} {instr : Reg → Reg → Word → Instr}
    (hwf : ∀ rs1 rs2 i, (instr rs1 rs2 i).wf = fitsI i)
    (henc : ∀ rs1 rs2 i, encode enc (instr rs1 rs2 i) =
      encodeS i rs2 rs1 (p.extractLsb' 12 3) (p.extractLsb' 0 7)) :
    RowRoundTrips enc ⟨0x0000707F#32, p, fun w => instr (rs1Field w) (rs2Field w) (immS w)⟩ := by
  intro w h
  obtain ⟨hop, hf3⟩ := fields_of_funct3Mask h
  exact ⟨(hwf _ _ _).trans (fitsI_signExtend _), fun _ _ => (henc _ _ _).trans (encodeS_of_fields hop hf3)⟩

theorem formatR_roundTrips {enc : LoadUnsignedEncoding} {p : Word} {instr : Reg → Reg → Reg → Instr}
    (hwf : ∀ rd rs1 rs2, (instr rd rs1 rs2).wf = true)
    (henc : ∀ rd rs1 rs2, encode enc (instr rd rs1 rs2) =
      encodeR (p.extractLsb' 25 7) rs2 rs1 (p.extractLsb' 12 3) rd (p.extractLsb' 0 7)) :
    RowRoundTrips enc ⟨0xFE00707F#32, p, fun w => instr (rdField w) (rs1Field w) (rs2Field w)⟩ := by
  intro w h
  obtain ⟨hop, hf3, hf7⟩ := fields_of_funct7Mask h
  exact ⟨hwf _ _ _, fun _ _ => (henc _ _ _).trans (encodeR_of_fields hop hf3 hf7)⟩

theorem formatSYS_roundTrips {enc : LoadUnsignedEncoding} {p : Word} {instr : Reg → Instr}
    (hwf : ∀ rd, (instr rd).wf = true)
    (henc : ∀ rd, encode enc (instr rd) = encodeSYS (p.extractLsb' 12 20) rd (p.extractLsb' 0 7)) :
    RowRoundTrips enc ⟨0xFFFFF07F#32, p, fun w => instr (rdField w)⟩ := by
  intro w h
  obtain ⟨hop, hconst⟩ := fields_of_systemMask h
  exact ⟨hwf _, fun _ _ => (henc _).trans (encodeSYS_of_fields hop hconst)⟩

/-! ## Every row of the table, family by family -/

/-- A claim about every row, family by family. -/
theorem forall_mem_decodeTable_iff {enc : LoadUnsignedEncoding} {P : Row → Prop} :
    (∀ r ∈ decodeTable enc, P r) ↔ (∀ r ∈ upperRows, P r) ∧ (∀ r ∈ jumpRows, P r) ∧ (∀ r ∈ branchRows, P r) ∧
      (∀ r ∈ loadRows enc, P r) ∧ (∀ r ∈ storeRows, P r) ∧ (∀ r ∈ immediateRows, P r) ∧
      (∀ r ∈ registerRows, P r) ∧ ∀ r ∈ systemRows, P r := by
  simp only [decodeTable, List.forall_mem_append, and_assoc]

theorem upperRows_roundTrip (enc : LoadUnsignedEncoding) : ∀ r ∈ upperRows, RowRoundTrips enc r := by
  simp only [upperRows, List.forall_mem_cons]
  refine ⟨?_, ?_, List.forall_mem_nil _⟩ <;> exact formatU_roundTrips (fun _ _ => rfl) (fun _ _ => rfl)

theorem jumpRows_roundTrip (enc : LoadUnsignedEncoding) : ∀ r ∈ jumpRows, RowRoundTrips enc r := by
  simp only [jumpRows, List.forall_mem_cons]
  refine ⟨?jal, ?jalr, List.forall_mem_nil _⟩
  case jal => exact formatJ_roundTrips (fun _ _ => rfl) (fun _ _ => rfl)
  case jalr => exact formatI_roundTrips (fun _ _ _ => rfl) (fun _ _ _ => rfl)

theorem branchRows_roundTrip (enc : LoadUnsignedEncoding) : ∀ r ∈ branchRows, RowRoundTrips enc r := by
  simp only [branchRows, List.forall_mem_cons]
  refine ⟨?_, ?_, ?_, ?_, ?_, ?_, List.forall_mem_nil _⟩ <;>
    exact formatB_roundTrips (fun _ _ _ => rfl) (fun _ _ _ => rfl)

theorem loadRows_roundTrip (enc : LoadUnsignedEncoding) : ∀ r ∈ loadRows enc, RowRoundTrips enc r := by
  simp only [loadRows, List.forall_mem_cons]
  refine ⟨?_, ?_, ?_, ?_, ?_, List.forall_mem_nil _⟩ <;> cases enc <;>
    exact formatI_roundTrips (fun _ _ _ => rfl) (fun _ _ _ => rfl)

theorem storeRows_roundTrip (enc : LoadUnsignedEncoding) : ∀ r ∈ storeRows, RowRoundTrips enc r := by
  simp only [storeRows, List.forall_mem_cons]
  refine ⟨?_, ?_, ?_, List.forall_mem_nil _⟩ <;> exact formatS_roundTrips (fun _ _ _ => rfl) (fun _ _ _ => rfl)

theorem immediateRows_roundTrip (enc : LoadUnsignedEncoding) : ∀ r ∈ immediateRows, RowRoundTrips enc r := by
  simp only [immediateRows, List.forall_mem_cons]
  refine ⟨?_, ?_, ?_, ?_, ?_, ?srli, ?srai, ?_, ?_, List.forall_mem_nil _⟩
  case srli | srai => exact formatISH_roundTrips (fun _ _ _ => rfl) (fun _ _ _ => rfl)
  all_goals exact formatI_roundTrips (fun _ _ _ => rfl) (fun _ _ _ => rfl)

theorem registerRows_roundTrip (enc : LoadUnsignedEncoding) : ∀ r ∈ registerRows, RowRoundTrips enc r := by
  simp only [registerRows, List.forall_mem_cons]
  refine ⟨?_, ?_, ?_, ?_, ?_, ?_, ?_, ?_, ?_, ?_, List.forall_mem_nil _⟩ <;>
    exact formatR_roundTrips (fun _ _ _ => rfl) (fun _ _ _ => rfl)

/-- `fence` and `unimp` keep no free bit (R82), so of them only the well-formedness is claimed. -/
theorem systemRows_roundTrip (enc : LoadUnsignedEncoding) : ∀ r ∈ systemRows, RowRoundTrips enc r := by
  simp only [systemRows, List.forall_mem_cons]
  refine ⟨?fence, ?ecall, ?ebreak, ?unimp, List.forall_mem_nil _⟩
  case fence => exact fun w _ => ⟨rfl, fun hfence => absurd rfl hfence⟩
  case unimp => exact fun w _ => ⟨rfl, fun _ hunimp => absurd rfl hunimp⟩
  case ecall | ebreak => exact formatSYS_roundTrips (fun _ => rfl) (fun _ => rfl)

theorem decodeTable_roundTrip (enc : LoadUnsignedEncoding) : ∀ r ∈ decodeTable enc, RowRoundTrips enc r :=
  forall_mem_decodeTable_iff.mpr ⟨upperRows_roundTrip enc, jumpRows_roundTrip enc, branchRows_roundTrip enc,
    loadRows_roundTrip enc, storeRows_roundTrip enc, immediateRows_roundTrip enc, registerRows_roundTrip enc,
    systemRows_roundTrip enc⟩

/-- Settles O51: a decode answers what the accepting row reads, and every row of the table round-trips. -/
theorem encodeOfDecodeIsTheWord : Obligations.EncodeOfDecodeIsTheWord := by
  intro enc w i hdecode
  obtain ⟨r, hr, hmatch, hok⟩ | ⟨-, herror⟩ := decode_cases enc w
  · obtain rfl : r.operands w = i := Except.ok.inj (hok.symm.trans hdecode)
    exact decodeTable_roundTrip enc r hr w hmatch
  · simp [herror] at hdecode

end Sys2Proof.Machine
end

section
/-! PROOF. The words that no row of the table accepts (spec 30_encoding.md R79, R81, R88): each row accepts by the fields
under its mask, so each family of rows rejects by its opcode and function codes. -/

namespace Sys2Proof.Machine

open Sys2Proof

/-! ## A row's match as equations of fields (R80) -/

theorem and_opcodeMask_eq_iff {w p : Word} (hp : p &&& 0x0000007F#32 = p) :
    w &&& 0x0000007F#32 = p ↔ w.extractLsb' 0 7 = p.extractLsb' 0 7 := by
  refine ⟨fields_of_opcodeMask, fun hop => ?_⟩
  rw [and_opcodeMask, hop, ← and_opcodeMask, hp]

theorem and_funct3Mask_eq_iff {w p : Word} (hp : p &&& 0x0000707F#32 = p) :
    w &&& 0x0000707F#32 = p ↔ w.extractLsb' 0 7 = p.extractLsb' 0 7 ∧ w.extractLsb' 12 3 = p.extractLsb' 12 3 := by
  refine ⟨fields_of_funct3Mask, fun ⟨hop, hf3⟩ => ?_⟩
  rw [and_funct3Mask, hop, hf3, ← and_funct3Mask, hp]

theorem and_funct7Mask_eq_iff {w p : Word} (hp : p &&& 0xFE00707F#32 = p) :
    w &&& 0xFE00707F#32 = p ↔ w.extractLsb' 0 7 = p.extractLsb' 0 7 ∧ w.extractLsb' 25 7 = p.extractLsb' 25 7 ∧
      w.extractLsb' 12 3 = p.extractLsb' 12 3 := by
  refine ⟨fun h => ?_, fun ⟨hop, hf7, hf3⟩ => ?_⟩
  · obtain ⟨hop, hf3, hf7⟩ := fields_of_funct7Mask h
    exact ⟨hop, hf7, hf3⟩
  · rw [and_funct7Mask, hop, hf3, hf7, ← and_funct7Mask, hp]

theorem and_systemMask_eq_iff {w p : Word} (hp : p &&& 0xFFFFF07F#32 = p) :
    w &&& 0xFFFFF07F#32 = p ↔ w.extractLsb' 0 7 = p.extractLsb' 0 7 ∧ w.extractLsb' 12 20 = p.extractLsb' 12 20 := by
  refine ⟨fields_of_systemMask, fun ⟨hop, hconst⟩ => ?_⟩
  rw [and_systemMask, hop, hconst, ← and_systemMask, hp]

/-! ## What each family of rows rejects (R79, R81) -/

/-- No row of the list accepts the word. -/
def NoneAccepts (rows : List Row) (w : Word) : Prop := ∀ r ∈ rows, w &&& r.mask ≠ r.pattern

theorem decode_eq_error_iff (enc : LoadUnsignedEncoding) (w : Word) :
    decode enc w = .error (.undefinedEncoding w) ↔ NoneAccepts (decodeTable enc) w := by
  obtain ⟨r, hr, hmatch, hok⟩ | ⟨hnone, herror⟩ := decode_cases enc w
  · exact iff_of_false (by simp [hok]) (fun hnone => hnone r hr hmatch)
  · exact iff_of_true herror hnone

theorem noneAccepts_decodeTable_iff (enc : LoadUnsignedEncoding) (w : Word) :
    NoneAccepts (decodeTable enc) w ↔ NoneAccepts upperRows w ∧ NoneAccepts jumpRows w ∧ NoneAccepts branchRows w ∧
      NoneAccepts (loadRows enc) w ∧ NoneAccepts storeRows w ∧ NoneAccepts immediateRows w ∧
      NoneAccepts registerRows w ∧ NoneAccepts systemRows w := forall_mem_decodeTable_iff

theorem noneAccepts_upperRows (w : Word) :
    NoneAccepts upperRows w ↔ w.extractLsb' 0 7 ≠ 0b0110111#7 ∧ w.extractLsb' 0 7 ≠ 0b0010111#7 := by
  simp [NoneAccepts, upperRows, and_opcodeMask_eq_iff]

theorem noneAccepts_jumpRows (w : Word) :
    NoneAccepts jumpRows w ↔ w.extractLsb' 0 7 ≠ 0b1101111#7 ∧
      (w.extractLsb' 0 7 = 0b1100111#7 → w.extractLsb' 12 3 ≠ 0b000#3) := by
  simp [NoneAccepts, jumpRows, and_opcodeMask_eq_iff, and_funct3Mask_eq_iff]

theorem noneAccepts_branchRows (w : Word) :
    NoneAccepts branchRows w ↔ (w.extractLsb' 0 7 = 0b1100011#7 → w.extractLsb' 12 3 ∈ [0b010#3, 0b011#3]) := by
  have hfree : ∀ f3 : BitVec 3, f3 ∈ [0b010#3, 0b011#3] ↔
      f3 ≠ 0#3 ∧ f3 ≠ 1#3 ∧ f3 ≠ 4#3 ∧ f3 ≠ 5#3 ∧ f3 ≠ 6#3 ∧ f3 ≠ 7#3 := by decide
  rw [hfree]
  simp [NoneAccepts, branchRows, and_funct3Mask_eq_iff, imp_and]

theorem noneAccepts_loadRows (enc : LoadUnsignedEncoding) (w : Word) :
    NoneAccepts (loadRows enc) w ↔ (w.extractLsb' 0 7 = 0b0000011#7 →
      (enc = .asPrinted ∧ w.extractLsb' 12 3 ∈ [0b101#3, 0b110#3, 0b111#3]) ∨
      (enc = .rv32i ∧ w.extractLsb' 12 3 ∈ [0b011#3, 0b110#3, 0b111#3])) := by
  cases enc with
  | asPrinted =>
    have hfree : ∀ f3 : BitVec 3, f3 ∈ [0b101#3, 0b110#3, 0b111#3] ↔
        f3 ≠ 0#3 ∧ f3 ≠ 1#3 ∧ f3 ≠ 2#3 ∧ f3 ≠ 3#3 ∧ f3 ≠ 4#3 := by decide
    rw [hfree]
    simp [NoneAccepts, loadRows, lbuPattern, lhuPattern, and_funct3Mask_eq_iff, imp_and]
  | rv32i =>
    have hfree : ∀ f3 : BitVec 3, f3 ∈ [0b011#3, 0b110#3, 0b111#3] ↔
        f3 ≠ 0#3 ∧ f3 ≠ 1#3 ∧ f3 ≠ 2#3 ∧ f3 ≠ 4#3 ∧ f3 ≠ 5#3 := by decide
    rw [hfree]
    simp [NoneAccepts, loadRows, lbuPattern, lhuPattern, and_funct3Mask_eq_iff, imp_and]

theorem noneAccepts_storeRows (w : Word) :
    NoneAccepts storeRows w ↔
      (w.extractLsb' 0 7 = 0b0100011#7 → w.extractLsb' 12 3 ∉ [0b000#3, 0b001#3, 0b010#3]) := by
  simp [NoneAccepts, storeRows, and_funct3Mask_eq_iff, imp_and]

theorem noneAccepts_immediateRows (w : Word) :
    NoneAccepts immediateRows w ↔ (w.extractLsb' 0 7 = 0b0010011#7 →
      w.extractLsb' 12 3 = 0b101#3 ∧ w.extractLsb' 25 7 ∉ [0b0000000#7, 0b0100000#7]) := by
  have hfree : ∀ f3 : BitVec 3, f3 = 0b101#3 ↔
      f3 ≠ 0#3 ∧ f3 ≠ 1#3 ∧ f3 ≠ 2#3 ∧ f3 ≠ 3#3 ∧ f3 ≠ 4#3 ∧ f3 ≠ 6#3 ∧ f3 ≠ 7#3 := by decide
  by_cases hop : w.extractLsb' 0 7 = 0b0010011#7
  · by_cases hf3 : w.extractLsb' 12 3 = 0b101#3
    · simp [NoneAccepts, immediateRows, and_funct3Mask_eq_iff, and_funct7Mask_eq_iff, hop, hf3]
    · have hrow := mt (hfree _).mpr hf3
      simpa [NoneAccepts, immediateRows, and_funct3Mask_eq_iff, and_funct7Mask_eq_iff, hop, hf3] using hrow
  · simp [NoneAccepts, immediateRows, and_funct3Mask_eq_iff, and_funct7Mask_eq_iff, hop]

theorem noneAccepts_registerRows (w : Word) :
    NoneAccepts registerRows w ↔ (w.extractLsb' 0 7 = 0b0110011#7 →
      (w.extractLsb' 25 7, w.extractLsb' 12 3) ∉ [(0b0000000#7, 0b000#3), (0b0100000#7, 0b000#3),
        (0b0000000#7, 0b001#3), (0b0000000#7, 0b010#3), (0b0000000#7, 0b011#3), (0b0000000#7, 0b100#3),
        (0b0000000#7, 0b101#3), (0b0100000#7, 0b101#3), (0b0000000#7, 0b110#3), (0b0000000#7, 0b111#3)]) := by
  simp [NoneAccepts, registerRows, and_funct7Mask_eq_iff, imp_and]

theorem noneAccepts_systemRows (w : Word) :
    NoneAccepts systemRows w ↔ w.extractLsb' 0 7 ≠ 0b0001111#7 ∧
      (w.extractLsb' 0 7 = 0b1110011#7 → w.extractLsb' 12 20 ∉ [0x00000#20, 0x00100#20, 0xC0001#20]) := by
  simp [NoneAccepts, systemRows, and_opcodeMask_eq_iff, and_systemMask_eq_iff, imp_and]

/-! ## The whole table -/

/-- Settles O52: each family of rows has its own opcodes, so for each of the eleven opcodes one clause of R81 remains. -/
theorem undefinedEncodingsAreRejected : Obligations.UndefinedEncodingsAreRejected := by
  intro enc w
  rw [decode_eq_error_iff, noneAccepts_decodeTable_iff, noneAccepts_upperRows, noneAccepts_jumpRows, noneAccepts_branchRows,
    noneAccepts_loadRows, noneAccepts_storeRows, noneAccepts_immediateRows, noneAccepts_registerRows,
    noneAccepts_systemRows]
  generalize w.extractLsb' 0 7 = op
  by_cases hop : op ∈ [0b0110111#7, 0b0010111#7, 0b1101111#7, 0b1100111#7, 0b1100011#7, 0b0000011#7, 0b0100011#7,
      0b0010011#7, 0b0110011#7, 0b0001111#7, 0b1110011#7]
  · simp only [List.mem_cons, List.not_mem_nil, or_false] at hop
    rcases hop with rfl | rfl | rfl | rfl | rfl | rfl | rfl | rfl | rfl | rfl | rfl <;> simp
  · refine iff_of_true ?_ (.inl hop)
    simp only [List.mem_cons, List.not_mem_nil, or_false, not_or] at hop
    simp [hop]

end Sys2Proof.Machine
end

section
/-! PROOF. Upper-immediate instructions (spec 40_upper_immediate.md R100, R101): the words that decode to them, what they
write, and the constants `lui` builds together with `addi`. -/

namespace Sys2Proof.Machine

open Sys2Proof

/-! ## The upper rows stand in the table (R80) -/

theorem mem_decodeTable_of_mem_upperRows (enc : LoadUnsignedEncoding) : ∀ r ∈ upperRows, r ∈ decodeTable enc := by
  obtain ⟨hupper, -⟩ := forall_mem_decodeTable_iff.mp fun r (hr : r ∈ decodeTable enc) => hr
  exact hupper

/-! ## What the instructions write (R100, R101) -/

/-- Settles O1: the first row of the table accepts the word, and `lui` ends by writing `rd`. -/
theorem luiWritesItsImmediate : Obligations.LuiWritesItsImmediate := by
  refine ⟨fun enc w h => ?_, fun rd i s => finish_writesRegister s rd i⟩
  exact decode_of_accepts (mem_decodeTable_of_mem_upperRows enc _ (.head _)) h

/-- Settles O2: the second row of the table accepts the word, and `auipc` ends by writing `rd`, where a sum of words is
the sum of their values modulo `2^32`. -/
theorem auipcAddsItsImmediateToPc : Obligations.AuipcAddsItsImmediateToPc := by
  refine ⟨fun enc w h => ?_, fun rd i s => ?_⟩
  · exact decode_of_accepts (mem_decodeTable_of_mem_upperRows enc _ (.tail _ (.head _))) h
  · rw [← BitVec.add_def]
    exact finish_writesRegister s rd (s.pc + i)

/-! ## A constant in two parts (R100) -/

/-- The mask of R100's corner case keeps the bits a U-immediate holds. -/
theorem and_upperMask (w : Word) : w &&& 0xFFFFF000#32 = immU w := by
  apply BitVec.eq_of_getLsbD_eq
  intro k hk
  simp only [immU, BitVec.getLsbD_and, BitVec.getLsbD_append, BitVec.getLsbD_extractLsb']
  interval_cases k <;> simp

/-- A U-immediate is its word rounded down to a multiple of `2^12`. -/
theorem toNat_immU (w : Word) : (immU w).toNat = w.toNat / 4096 * 4096 := by
  have hw := w.isLt
  simp only [immU, BitVec.toNat_append, BitVec.toNat_ofNat, BitVec.extractLsb'_toNat, Nat.shiftRight_eq_div_pow,
    Nat.shiftLeft_eq, Nat.zero_mod, Nat.or_zero]
  omega

/-- The low twelve bits of a word, sign-extended: lower by `2^12` modulo `2^32` where bit 11 is set. -/
theorem toNat_signExtend_low (w : Word) : ((w.extractLsb' 0 12).signExtend 32).toNat =
    if w.toNat % 4096 < 2048 then w.toNat % 4096 else w.toNat % 4096 + (2 ^ 32 - 4096) := by
  have hlow : (w.extractLsb' 0 12).toNat = w.toNat % 4096 := by rw [BitVec.extractLsb'_toNat, Nat.shiftRight_zero]
  have hmsb : (w.extractLsb' 0 12).msb = decide (2048 ≤ w.toNat % 4096) := by rw [BitVec.msb_eq_decide, hlow]
  rw [BitVec.toNat_signExtend, BitVec.toNat_setWidth, hmsb, hlow]
  simp only [decide_eq_true_eq]
  split <;> split <;> omega

/-- Adding `0x800` before the low bits are cut off makes up for the sign of those bits. -/
theorem upper_add_signExtend_low (c : Word) :
    ((c + 0x800#32) &&& 0xFFFFF000#32) + (c.extractLsb' 0 12).signExtend 32 = c := by
  apply BitVec.eq_of_toNat_eq
  rw [BitVec.toNat_add, and_upperMask, toNat_immU, toNat_signExtend_low, BitVec.toNat_add, BitVec.toNat_ofNat]
  have hc := c.isLt
  split <;> omega

/-- Settles O54: `addi` reads what `lui` left in `rd`, and the two parts sum to the constant. -/
theorem luiThenAddiBuildsAConstant : Obligations.LuiThenAddiBuildsAConstant := by
  intro c rd s hrd
  refine ⟨_, _, finish_eq s rd _, finish_eq _ rd _, ?_⟩
  rw [setPc_writeReg_readReg hrd, setPc_writeReg_readReg hrd, upper_add_signExtend_low]

end Sys2Proof.Machine
end

section
/-! PROOF. Addition, subtraction and comparison (spec 41_arithmetic_compare.md R110 to R117): the words that decode to
them, what they write, and the carry out of an addition. -/

namespace Sys2Proof.Machine

open Sys2Proof

/-! ## The register-register and register-immediate rows decode their words (R80) -/

theorem mem_decodeTable_of_mem_registerRows (enc : LoadUnsignedEncoding) : ∀ r ∈ registerRows, r ∈ decodeTable enc := by
  obtain ⟨-, -, -, -, -, -, hregister, -⟩ := forall_mem_decodeTable_iff.mp fun r (hr : r ∈ decodeTable enc) => hr
  exact hregister

theorem mem_decodeTable_of_mem_immediateRows (enc : LoadUnsignedEncoding) :
    ∀ r ∈ immediateRows, r ∈ decodeTable enc := by
  obtain ⟨-, -, -, -, -, himmediate, -⟩ := forall_mem_decodeTable_iff.mp fun r (hr : r ∈ decodeTable enc) => hr
  exact himmediate

/-- A word that register-register row `k`, counted from 0, accepts decodes by that row. -/
theorem decode_registerRow (enc : LoadUnsignedEncoding) (k : Nat) {w : Word} (hk : k < registerRows.length := by decide)
    (h : w &&& registerRows[k].mask = registerRows[k].pattern) : decode enc w = .ok (registerRows[k].operands w) :=
  decode_of_accepts (mem_decodeTable_of_mem_registerRows enc _ (List.getElem_mem hk)) h

/-- A word that register-immediate row `k`, counted from 0, accepts decodes by that row. -/
theorem decode_immediateRow (enc : LoadUnsignedEncoding) (k : Nat) {w : Word}
    (hk : k < immediateRows.length := by decide) (h : w &&& immediateRows[k].mask = immediateRows[k].pattern) :
    decode enc w = .ok (immediateRows[k].operands w) :=
  decode_of_accepts (mem_decodeTable_of_mem_immediateRows enc _ (List.getElem_mem hk)) h

/-! ## Sums and differences (R110, R111, R112) -/

/-- Subtraction modulo `2^32`, over naturals: `2^32` is added first, so that the difference is exact. -/
theorem sub_eq_ofNat (a b : Word) : a - b = BitVec.ofNat 32 (a.toNat + 2 ^ 32 - b.toNat) := by
  have hb := b.isLt
  rw [BitVec.sub_def]
  congr 1
  omega

/-- Settles O3: both end by writing `rd`, the sum by `BitVec.add_def` and the difference by `sub_eq_ofNat`. -/
theorem addAndSubAreModular : Obligations.AddAndSubAreModular := by
  refine ⟨fun enc w h => decode_registerRow enc 0 (h := h), fun enc w h => decode_registerRow enc 1 (h := h),
    fun rd rs1 rs2 s => ⟨?add, ?sub⟩⟩
  case add =>
    rw [← BitVec.add_def]
    exact finish_writesRegister s rd _
  case sub =>
    rw [← sub_eq_ofNat]
    exact finish_writesRegister s rd _

/-- Settles O4: `addi` ends by writing to `rd` the sum of `x[rs1]` and the immediate. -/
theorem addiAddsASignedImmediate : Obligations.AddiAddsASignedImmediate := by
  refine ⟨fun enc w h => decode_immediateRow enc 0 (h := h), fun rd rs1 i s => ?_⟩
  rw [← BitVec.add_def]
  exact finish_writesRegister s rd _

/-! ## Comparisons (R113 to R116) -/

/-- The word a signed comparison writes (R117). -/
theorem truthWord_lessSigned (a b : Word) :
    truthWord (lessSigned a b) = if a.toInt < b.toInt then 1#32 else 0#32 := by
  simp only [truthWord, lessSigned, decide_eq_true_eq]

/-- The word an unsigned comparison writes (R117). -/
theorem truthWord_lessUnsigned (a b : Word) :
    truthWord (lessUnsigned a b) = if a.toNat < b.toNat then 1#32 else 0#32 := by
  simp only [truthWord, lessUnsigned, decide_eq_true_eq]

/-- Settles O5: both end by writing to `rd` the word of their comparison. -/
theorem setLessThanComparesRegisters : Obligations.SetLessThanComparesRegisters := by
  refine ⟨fun enc w h => decode_registerRow enc 3 (h := h), fun enc w h => decode_registerRow enc 4 (h := h),
    fun rd rs1 rs2 s => ⟨?slt, ?sltu⟩⟩
  case slt =>
    rw [← truthWord_lessSigned]
    exact finish_writesRegister s rd _
  case sltu =>
    rw [← truthWord_lessUnsigned]
    exact finish_writesRegister s rd _

/-- Settles O6: as O5, with the immediate as the second word that is compared. -/
theorem setLessThanComparesImmediate : Obligations.SetLessThanComparesImmediate := by
  refine ⟨fun enc w h => decode_immediateRow enc 2 (h := h), fun enc w h => decode_immediateRow enc 3 (h := h),
    fun rd rs1 i s => ⟨?slti, ?sltui⟩⟩
  case slti =>
    rw [← truthWord_lessSigned]
    exact finish_writesRegister s rd _
  case sltui =>
    rw [← truthWord_lessUnsigned]
    exact finish_writesRegister s rd _

/-! ## The carry out of an addition (R117) -/

/-- A sum modulo `2^32` is below its first addend exactly when the addition wraps around. -/
theorem toNat_add_lt_left_iff (a b : Word) : (a + b).toNat < a.toNat ↔ 2 ^ 32 ≤ a.toNat + b.toNat := by
  have ha := a.isLt
  have hb := b.isLt
  rw [BitVec.toNat_add]
  omega

/-- Settles O55: `sltu` compares the sum that `add` left in `rd` with `x[rs1]`, which `add` did not change. -/
theorem carryOutIsRecoveredBySltu : Obligations.CarryOutIsRecoveredBySltu := by
  intro rd rs1 rs2 rq s hrd hne hrq
  obtain ⟨t, hadd, hsum⟩ := finish_writesRegister s rd (s.readReg rs1 + s.readReg rs2)
  refine ⟨t, _, hadd, finish_eq t rq _, ?_⟩
  rw [setPc_writeReg_readReg hrq, hsum.dest, if_neg hrd, hsum.others rs1 hne.symm, truthWord_lessUnsigned]
  simp only [toNat_add_lt_left_iff]

end Sys2Proof.Machine
end

section
/-! PROOF. Shifts (spec 42_shifts.md R130 to R136): the words that decode to them, the amount by which they shift, and
where each bit of the result comes from. -/

namespace Sys2Proof.Machine

open Sys2Proof

/-! ## The amount (R136) -/

/-- The low five bits of a word, as its remainder modulo 32. -/
theorem shiftAmount_eq_mod (b : Word) : shiftAmount b = b.toNat % 32 := by
  rw [shiftAmount, BitVec.extractLsb'_toNat, Nat.shiftRight_zero]

/-- An I-immediate shifts by bits 24:20 of its word: the sign extension and bits 31:25 do not reach the amount (R131). -/
theorem shiftAmount_immI (w : Word) : shiftAmount (immI w) = (w.extractLsb' 20 5).toNat := by
  rw [shiftAmount, immI, extract_signExtend _ (by omega) (by omega)]
  simp only [BitVec.extractLsb'_toNat, Nat.shiftRight_zero]
  exact Nat.mod_mod_of_dvd _ (Nat.pow_dvd_pow 2 (by omega))

/-- The immediate of `srli` and `srai` is its amount (R78, R133, R135). -/
theorem shiftAmount_immSH (w : Word) : shiftAmount (immSH w) = (w.extractLsb' 20 5).toNat := by
  have hlt := (w.extractLsb' 20 5).isLt
  rw [shiftAmount_eq_mod, immSH, BitVec.toNat_setWidth]
  omega

/-! ## Where each bit of a shifted word comes from (00_scope.md R10) -/

theorem getLsbD_shiftLeft (a b : Word) {k : Nat} (hk : k < 32) :
    (shiftLeft a b).getLsbD k = (decide (b.toNat % 32 ≤ k) && a.getLsbD (k - b.toNat % 32)) := by
  rw [shiftLeft, shiftAmount_eq_mod, BitVec.getLsbD_shiftLeft, decide_eq_true hk, Bool.true_and, ← decide_not]
  simp only [Nat.not_lt]

theorem getLsbD_shiftRightLogical (a b : Word) (k : Nat) :
    (shiftRightLogical a b).getLsbD k = a.getLsbD (k + b.toNat % 32) := by
  rw [shiftRightLogical, shiftAmount_eq_mod, BitVec.getLsbD_ushiftRight, Nat.add_comm]

/-- A bit that would come from beyond bit 31 is a copy of bit 31. -/
theorem getLsbD_shiftRightArithmetic (a b : Word) {k : Nat} (hk : k < 32) :
    (shiftRightArithmetic a b).getLsbD k = a.getLsbD (min (k + b.toNat % 32) 31) := by
  rw [shiftRightArithmetic, shiftAmount_eq_mod, BitVec.getLsbD_sshiftRight, decide_eq_false (by omega), Bool.not_false,
    Bool.true_and, Nat.add_comm]
  split
  case isTrue hin => rw [Nat.min_eq_left (by omega)]
  case isFalse hout => rw [Nat.min_eq_right (by omega), BitVec.msb_eq_getLsbD_last]

/-! ## What the instructions write (R130 to R135)

A register and an immediate shift end alike: `b` is `x[rs2]` of the one and the immediate of the other. -/

theorem finish_shiftLeft (s : State) (rd : Reg) (a b : Word) :
    ∃ t v, s.finish rd (shiftLeft a b) = .next t ∧ WritesRegister s t rd v (s.pc + 4#32) ∧
      ∀ k, k < 32 → v.getLsbD k = (decide (b.toNat % 32 ≤ k) && a.getLsbD (k - b.toNat % 32)) := by
  obtain ⟨t, hnext, hwrites⟩ := finish_writesRegister s rd (shiftLeft a b)
  exact ⟨t, _, hnext, hwrites, fun _ hk => getLsbD_shiftLeft a b hk⟩

theorem finish_shiftRightLogical (s : State) (rd : Reg) (a b : Word) :
    ∃ t v, s.finish rd (shiftRightLogical a b) = .next t ∧ WritesRegister s t rd v (s.pc + 4#32) ∧
      ∀ k, k < 32 → v.getLsbD k = a.getLsbD (k + b.toNat % 32) := by
  obtain ⟨t, hnext, hwrites⟩ := finish_writesRegister s rd (shiftRightLogical a b)
  exact ⟨t, _, hnext, hwrites, fun k _ => getLsbD_shiftRightLogical a b k⟩

theorem finish_shiftRightArithmetic (s : State) (rd : Reg) (a b : Word) :
    ∃ t v, s.finish rd (shiftRightArithmetic a b) = .next t ∧ WritesRegister s t rd v (s.pc + 4#32) ∧
      ∀ k, k < 32 → v.getLsbD k = a.getLsbD (min (k + b.toNat % 32) 31) := by
  obtain ⟨t, hnext, hwrites⟩ := finish_writesRegister s rd (shiftRightArithmetic a b)
  exact ⟨t, _, hnext, hwrites, fun _ hk => getLsbD_shiftRightArithmetic a b hk⟩

/-- Settles O7: rows 2, 6 and 7 of the register-register rows accept the words, and each instruction ends by writing to
`rd` the word `x[rs1]`, shifted by the low five bits of `x[rs2]`. -/
theorem registerShiftsMoveBits : Obligations.RegisterShiftsMoveBits :=
  ⟨fun enc _ h => decode_registerRow enc 2 (h := h), fun enc _ h => decode_registerRow enc 6 (h := h),
    fun enc _ h => decode_registerRow enc 7 (h := h),
    fun rd _ _ s => ⟨finish_shiftLeft s rd _ _, finish_shiftRightLogical s rd _ _, finish_shiftRightArithmetic s rd _ _⟩⟩

/-- Settles O8: as O7, with the immediate, whose low five bits are instruction bits 24:20, in the place of `x[rs2]`. -/
theorem immediateShiftsMoveBits : Obligations.ImmediateShiftsMoveBits := by
  refine ⟨fun enc _ h => decode_immediateRow enc 1 (h := h), fun enc _ h => decode_immediateRow enc 5 (h := h),
    fun enc _ h => decode_immediateRow enc 6 (h := h), fun w => ⟨?slliAmount, ?srliSraiAmount⟩,
    fun rd _ _ s => ⟨finish_shiftLeft s rd _ _, finish_shiftRightLogical s rd _ _, finish_shiftRightArithmetic s rd _ _⟩⟩
  case slliAmount => exact (shiftAmount_eq_mod (immI w)).symm.trans (shiftAmount_immI w)
  case srliSraiAmount => exact (shiftAmount_eq_mod (immSH w)).symm.trans (shiftAmount_immSH w)

end Sys2Proof.Machine
end

section
/-! PROOF. Logical operations (spec 43_logical.md R150 to R155): the words that decode to them, and the bits of what they
write. -/

namespace Sys2Proof.Machine

open Sys2Proof

/-! ## What the instructions write (R150 to R155)

A register and an immediate operation end alike: `b` is `x[rs2]` of the one and the immediate of the other. -/

/-- An instruction that ends by writing `v` to `rd`, where `v` combines `a` and `b` by `op` bit by bit. -/
theorem finish_bitwise (op : Bool → Bool → Bool) (s : State) (rd : Reg) {a b v : Word}
    (hbits : ∀ {k}, v.getLsbD k = op (a.getLsbD k) (b.getLsbD k)) :
    ∃ t u, s.finish rd v = .next t ∧ WritesRegister s t rd u (s.pc + 4#32) ∧
      ∀ k, u.getLsbD k = op (a.getLsbD k) (b.getLsbD k) := by
  obtain ⟨t, hnext, hwrites⟩ := finish_writesRegister s rd v
  exact ⟨t, v, hnext, hwrites, fun _ => hbits⟩

/-- Settles O9: rows 5, 9 and 8 of the register-register rows, counted from 0, accept the words, and each instruction
ends by writing to `rd` the word that combines `x[rs1]` and `x[rs2]` bit by bit. -/
theorem registerLogicIsBitwise : Obligations.RegisterLogicIsBitwise :=
  ⟨fun enc _ h => decode_registerRow enc 5 (h := h), fun enc _ h => decode_registerRow enc 9 (h := h),
    fun enc _ h => decode_registerRow enc 8 (h := h),
    fun rd _ _ s => ⟨finish_bitwise Bool.xor s rd BitVec.getLsbD_xor, finish_bitwise Bool.and s rd BitVec.getLsbD_and,
      finish_bitwise Bool.or s rd BitVec.getLsbD_or⟩⟩

/-- Settles O10: rows 4, 8 and 7 of the register-immediate rows, counted from 0, accept the words, and each instruction
ends as in O9, with the immediate in the place of `x[rs2]`. -/
theorem immediateLogicIsBitwise : Obligations.ImmediateLogicIsBitwise :=
  ⟨fun enc _ h => decode_immediateRow enc 4 (h := h), fun enc _ h => decode_immediateRow enc 8 (h := h),
    fun enc _ h => decode_immediateRow enc 7 (h := h),
    fun rd _ _ s => ⟨finish_bitwise Bool.xor s rd BitVec.getLsbD_xor, finish_bitwise Bool.and s rd BitVec.getLsbD_and,
      finish_bitwise Bool.or s rd BitVec.getLsbD_or⟩⟩

end Sys2Proof.Machine
end

section
/-! PROOF. Conditional branches (spec 44_branches.md R170 to R176): the words that decode to them, the condition under
which each is taken, and where the pc goes. -/

namespace Sys2Proof.Machine

open Sys2Proof

/-! ## The branch rows decode their words (R80) -/

theorem mem_decodeTable_of_mem_branchRows (enc : LoadUnsignedEncoding) : ∀ r ∈ branchRows, r ∈ decodeTable enc := by
  obtain ⟨-, -, hbranch, -⟩ := forall_mem_decodeTable_iff.mp fun r (hr : r ∈ decodeTable enc) => hr
  exact hbranch

/-- A word that branch row `k`, counted from 0, accepts decodes by that row. -/
theorem decode_branchRow (enc : LoadUnsignedEncoding) (k : Nat) {w : Word} (hk : k < branchRows.length := by decide)
    (h : w &&& branchRows[k].mask = branchRows[k].pattern) : decode enc w = .ok (branchRows[k].operands w) :=
  decode_of_accepts (mem_decodeTable_of_mem_branchRows enc _ (List.getElem_mem hk)) h

/-! ## The comparisons that decide a branch (R173 to R176) -/

theorem lessSigned_iff (a b : Word) : lessSigned a b = true ↔ a.toInt < b.toInt :=
  decide_eq_true_iff

theorem lessUnsigned_iff (a b : Word) : lessUnsigned a b = true ↔ a.toNat < b.toNat :=
  decide_eq_true_iff

/-- `bge` is taken exactly where `blt` is not (R174). -/
theorem not_lessSigned_iff (a b : Word) : (!lessSigned a b) = true ↔ a.toInt ≥ b.toInt := by
  rw [Bool.not_eq_true', ← Bool.not_eq_true, lessSigned_iff, Int.not_lt]

/-- `bgeu` is taken exactly where `bltu` is not (R176). -/
theorem not_lessUnsigned_iff (a b : Word) : (!lessUnsigned a b) = true ↔ a.toNat ≥ b.toNat := by
  rw [Bool.not_eq_true', ← Bool.not_eq_true, lessUnsigned_iff, Nat.not_lt]

/-! ## Where the pc goes (R170) -/

/-- A branch whose comparison decides `P` goes to its target if `P` holds and to the next word if not. -/
theorem branch_onlyMovesPc_of_iff {taken : Bool} {P : Prop} [Decidable P] (hP : taken = true ↔ P) (s : State)
    (i : Word) : ∃ t, s.branch taken i = .next t ∧ OnlyMovesPc s t (if P then s.pc + i else s.pc + 4#32) := by
  simp only [← hP]
  exact branch_onlyMovesPc s taken i

/-- Settles O11: rows 0 and 1 of the branch rows accept the words, and the comparisons `==` and `!=` decide equality and
inequality of the two registers. -/
theorem equalityBranchesCompareAllBits : Obligations.EqualityBranchesCompareAllBits :=
  ⟨fun enc _ h => decode_branchRow enc 0 (h := h), fun enc _ h => decode_branchRow enc 1 (h := h),
    fun _ _ i s => ⟨branch_onlyMovesPc_of_iff beq_iff_eq s i, branch_onlyMovesPc_of_iff bne_iff_ne s i⟩⟩

/-- Settles O12: rows 2 and 3 of the branch rows accept the words, and `lessSigned` and its negation decide the signed
comparisons. -/
theorem signedBranchesCompareAsIntegers : Obligations.SignedBranchesCompareAsIntegers :=
  ⟨fun enc _ h => decode_branchRow enc 2 (h := h), fun enc _ h => decode_branchRow enc 3 (h := h),
    fun _ _ i s => ⟨branch_onlyMovesPc_of_iff (lessSigned_iff _ _) s i,
      branch_onlyMovesPc_of_iff (not_lessSigned_iff _ _) s i⟩⟩

/-- Settles O13: rows 4 and 5 of the branch rows accept the words, and `lessUnsigned` and its negation decide the unsigned
comparisons. -/
theorem unsignedBranchesCompareAsNaturals : Obligations.UnsignedBranchesCompareAsNaturals :=
  ⟨fun enc _ h => decode_branchRow enc 4 (h := h), fun enc _ h => decode_branchRow enc 5 (h := h),
    fun _ _ i s => ⟨branch_onlyMovesPc_of_iff (lessUnsigned_iff _ _) s i,
      branch_onlyMovesPc_of_iff (not_lessUnsigned_iff _ _) s i⟩⟩

end Sys2Proof.Machine
end

section
/-! PROOF. Loads (spec 45_loads.md R190 to R195): the words that decode to them, what they write, and the faults of their
accesses. -/

namespace Sys2Proof.Machine

open Sys2Proof

/-! ## The load rows decode their words (R80, R88) -/

theorem mem_decodeTable_of_mem_loadRows (enc : LoadUnsignedEncoding) : ∀ r ∈ loadRows enc, r ∈ decodeTable enc := by
  obtain ⟨-, -, -, hload, -⟩ := forall_mem_decodeTable_iff.mp fun r (hr : r ∈ decodeTable enc) => hr
  exact hload

/-- A word that load row `k`, counted from 0, accepts decodes by that row. Both settings have five load rows. -/
theorem decode_loadRow (enc : LoadUnsignedEncoding) (k : Nat) {w : Word} (hk : k < 5 := by decide)
    (h : w &&& ((loadRows enc)[k]'hk).mask = ((loadRows enc)[k]'hk).pattern) :
    decode enc w = .ok (((loadRows enc)[k]'hk).operands w) :=
  decode_of_accepts (mem_decodeTable_of_mem_loadRows enc _ (List.getElem_mem hk)) h

/-! ## The checks that fail (R44, R52) -/

theorem checkAccess_of_misaligned {s : State} {n : Nat} {a : Word} (misaligned : Word → Fault)
    (halign : a.toNat % n ≠ 0) : s.checkAccess misaligned n a = some (misaligned a) :=
  (checkAccess_eq_some s misaligned n a _).mpr (.inl ⟨halign, rfl⟩)

theorem checkAccess_of_outOfRange {s : State} {n : Nat} {a : Word} (misaligned : Word → Fault)
    (halign : a.toNat % n = 0) (hle : s.params.memSize ≤ a.toNat) :
    s.checkAccess misaligned n a = some (.accessOutOfRange a) :=
  (checkAccess_eq_some s misaligned n a _).mpr (.inr ⟨halign, hle, rfl⟩)

/-! ## How a load ends (R190) -/

/-- A load whose access answers `v` ends by writing `v` to `rd`. -/
theorem finishLoad_writesRegister (s : State) (rd : Reg) {e : Except Fault Word} {v : Word} (he : e = .ok v) :
    ∃ t, s.finishLoad rd e = .next t ∧ WritesRegister s t rd v (s.pc + 4#32) := by
  subst he
  exact finish_writesRegister s rd v

/-- Both halfword loads raise the fault of the check of their access. -/
theorem exec_lh_lhu_fault {rs1 : Reg} {i : Word} {s : State} {f : Fault} (rd : Reg)
    (hcheck : s.checkAccess .misalignedLoad 2 (s.readReg rs1 + i) = some f) :
    exec (.lh rd rs1 i) s = .fault f ∧ exec (.lhu rd rs1 i) s = .fault f :=
  have hload : s.loadHalf (s.readReg rs1 + i) = .error f := loadHalf_eq_error.mpr hcheck
  ⟨finishLoad_eq_fault.mpr (congrArg (Except.map signExtendHalf) hload),
    finishLoad_eq_fault.mpr (congrArg (Except.map zeroExtendHalf) hload)⟩

/-- `lw` raises the fault of the check of its access. -/
theorem exec_lw_fault {rs1 : Reg} {i : Word} {s : State} {f : Fault} (rd : Reg)
    (hcheck : s.checkAccess .misalignedLoad 4 (s.readReg rs1 + i) = some f) : exec (.lw rd rs1 i) s = .fault f :=
  finishLoad_eq_fault.mpr (loadWord_eq_error.mpr hcheck)

/-- Settles O14: rows 0 and 3 of the load rows accept the words; below `MEM_SIZE` the access reads the byte, which each
load extends, and elsewhere it fails as O28 says. -/
theorem byteLoadsExtendTheByte : Obligations.ByteLoadsExtendTheByte := by
  refine ⟨fun enc w h => decode_loadRow enc 0 (h := h), fun w h => decode_loadRow .asPrinted 3 (h := h),
    fun w h => decode_loadRow .rv32i 3 (h := h), fun rd rs1 i s => ⟨fun hlt => ?reads, fun hle => ?outOfRange⟩⟩
  case reads =>
    have hload := loadByte_ok hlt
    exact ⟨finishLoad_writesRegister s rd (congrArg (Except.map signExtendByte) hload),
      finishLoad_writesRegister s rd (congrArg (Except.map zeroExtendByte) hload)⟩
  case outOfRange =>
    obtain ⟨hlb, hlbu, -⟩ := byteAccessOutsideMemoryFaults rd rs1 0 i s hle
    exact ⟨hlb, hlbu⟩

/-- Settles O15: rows 1 and 4 of the load rows accept the words; an access that passes its checks reads the two bytes,
which each load extends, and one that fails them ends both loads with the fault of the check. -/
theorem halfwordLoadsExtendTheHalfword : Obligations.HalfwordLoadsExtendTheHalfword := by
  refine ⟨fun enc w h => decode_loadRow enc 1 (h := h), fun w h => decode_loadRow .asPrinted 4 (h := h),
    fun w h => decode_loadRow .rv32i 4 (h := h), fun rd rs1 i s =>
      ⟨fun halign hlt => ?reads, fun hodd => ?misaligned, fun halign hle => ?outOfRange⟩⟩
  case reads =>
    have hload := loadHalf_ok halign hlt
    exact ⟨finishLoad_writesRegister s rd (congrArg (Except.map signExtendHalf) hload),
      finishLoad_writesRegister s rd (congrArg (Except.map zeroExtendHalf) hload)⟩
  case misaligned =>
    have hne : (s.readReg rs1 + i).toNat % 2 ≠ 0 := by omega
    exact exec_lh_lhu_fault rd (checkAccess_of_misaligned _ hne)
  case outOfRange => exact exec_lh_lhu_fault rd (checkAccess_of_outOfRange _ halign hle)

/-- Settles O16: row 2 of the load rows accepts the word; an access that passes its checks reads the four bytes, lowest
byte first, and one that fails them ends `lw` with the fault of the check. -/
theorem wordLoadReadsLittleEndian : Obligations.WordLoadReadsLittleEndian := by
  refine ⟨fun enc w h => decode_loadRow enc 2 (h := h), fun rd rs1 i s =>
    ⟨fun halign hlt => ?reads, fun hne => ?misaligned, fun halign hle => ?outOfRange⟩⟩
  case reads => exact finishLoad_writesRegister s rd (loadWord_ok halign hlt)
  case misaligned => exact exec_lw_fault rd (checkAccess_of_misaligned _ hne)
  case outOfRange => exact exec_lw_fault rd (checkAccess_of_outOfRange _ halign hle)

end Sys2Proof.Machine
end

section
/-! PROOF. Stores (spec 46_stores.md R210 to R213): the words that decode to them, the bytes a completed store writes,
and the faults of the others. -/

namespace Sys2Proof.Machine

open Sys2Proof

/-! ## The store rows decode their words (R80) -/

theorem mem_decodeTable_of_mem_storeRows (enc : LoadUnsignedEncoding) : ∀ r ∈ storeRows, r ∈ decodeTable enc := by
  obtain ⟨-, -, -, -, hstore, -⟩ := forall_mem_decodeTable_iff.mp fun r (hr : r ∈ decodeTable enc) => hr
  exact hstore

/-- A word that store row `k`, counted from 0, accepts decodes by that row. -/
theorem decode_storeRow (enc : LoadUnsignedEncoding) (k : Nat) {w : Word} (hk : k < storeRows.length := by decide)
    (h : w &&& storeRows[k].mask = storeRows[k].pattern) : decode enc w = .ok (storeRows[k].operands w) :=
  decode_of_accepts (mem_decodeTable_of_mem_storeRows enc _ (List.getElem_mem hk)) h

/-! ## The bytes of the low halfword (R212) -/

/-- A byte inside the low halfword of a word is that byte of the word. -/
theorem extractLsb'_lowHalf (v : Word) {k : Nat} (hk : k + 8 ≤ 16) :
    (lowHalf v).extractLsb' k 8 = v.extractLsb' k 8 :=
  BitVec.extractLsb'_extractLsb'_of_le hk

/-! ## The stores that fault (R44, R52) -/

/-- `sh` raises the fault of the check of its access. -/
theorem exec_sh_fault {rs1 : Reg} {i : Word} {s : State} {f : Fault} (rs2 : Reg)
    (hcheck : s.checkAccess .misalignedStore 2 (s.readReg rs1 + i) = some f) : exec (.sh rs1 rs2 i) s = .fault f :=
  finishStore_eq_fault.mpr (storeHalf_eq_error.mpr hcheck)

/-- `sw` raises the fault of the check of its access. -/
theorem exec_sw_fault {rs1 : Reg} {i : Word} {s : State} {f : Fault} (rs2 : Reg)
    (hcheck : s.checkAccess .misalignedStore 4 (s.readReg rs1 + i) = some f) : exec (.sw rs1 rs2 i) s = .fault f :=
  finishStore_eq_fault.mpr (storeWord_eq_error.mpr hcheck)

/-! ## Which bytes a store writes (R211, R212, R213) -/

/-- Settles O17: row 0 of the store rows accepts the word; below `MEM_SIZE` the store completes and writes the one byte,
and elsewhere it fails as O28 says. -/
theorem byteStoreWritesOneByte : Obligations.ByteStoreWritesOneByte := by
  refine ⟨fun enc w h => decode_storeRow enc 0 (h := h), fun rs1 rs2 i s =>
    ⟨fun ⟨_, hm, _⟩ hlt => ?stores, fun hle => ?outOfRange⟩⟩
  case stores =>
    have hnext := exec_sb_eq_next (rs2 := rs2) hlt
    exact ⟨_, hnext, exec_sb_storesBytes hm hnext⟩
  case outOfRange =>
    obtain ⟨-, -, hsb⟩ := byteAccessOutsideMemoryFaults 0 rs1 rs2 i s hle
    exact hsb

/-- Settles O18: row 1 of the store rows accepts the word; an access that passes its checks writes the two bytes of the
low halfword, lowest byte first, and one that fails them ends `sh` with the fault of the check. -/
theorem halfwordStoreWritesTwoBytes : Obligations.HalfwordStoreWritesTwoBytes := by
  refine ⟨fun enc w h => decode_storeRow enc 1 (h := h), fun rs1 rs2 i s =>
    ⟨fun ⟨_, hm, _⟩ halign hlt => ?stores, fun hne => ?misaligned, fun halign hle => ?outOfRange⟩⟩
  case stores =>
    have hnext := exec_sh_eq_next (rs2 := rs2) halign hlt
    have hstores := exec_sh_storesBytes hm hnext
    rw [extractLsb'_lowHalf _ (by decide), extractLsb'_lowHalf _ (by decide)] at hstores
    exact ⟨_, hnext, hstores⟩
  case misaligned => exact exec_sh_fault rs2 (checkAccess_of_misaligned _ hne)
  case outOfRange => exact exec_sh_fault rs2 (checkAccess_of_outOfRange _ halign hle)

/-- Settles O19: row 2 of the store rows accepts the word; an access that passes its checks writes the four bytes of
`x[rs2]`, lowest byte first, and one that fails them ends `sw` with the fault of the check. -/
theorem wordStoreWritesFourBytes : Obligations.WordStoreWritesFourBytes := by
  refine ⟨fun enc w h => decode_storeRow enc 2 (h := h), fun rs1 rs2 i s =>
    ⟨fun ⟨_, hm, _⟩ halign hlt => ?stores, fun hne => ?misaligned, fun halign hle => ?outOfRange⟩⟩
  case stores =>
    have hnext := exec_sw_eq_next (rs2 := rs2) halign hlt
    exact ⟨_, hnext, exec_sw_storesBytes hm hnext⟩
  case misaligned => exact exec_sw_fault rs2 (checkAccess_of_misaligned _ hne)
  case outOfRange => exact exec_sw_fault rs2 (checkAccess_of_outOfRange _ halign hle)

end Sys2Proof.Machine
end

section
/-! PROOF. The step (spec 60_exceptions.md R263, R269): the order of its checks, and that it always has an outcome. -/

namespace Sys2Proof.Machine

open Sys2Proof

/-- A fetch fails exactly where its check does (R48). -/
theorem fetch_eq_error {s : State} {f : Fault} :
    s.fetch = .error f ↔ s.checkAccess .misalignedFetch 4 s.pc = some f := by
  unfold State.fetch
  cases s.checkAccess .misalignedFetch 4 s.pc <;> simp

/-- Settles O29: a fetch that fails ends the step with its fault, and one that passes its checks answers the word at the
pc, whose decode is the third check. -/
theorem fetchChecksComeFirst : Obligations.FetchChecksComeFirst := by
  refine fun s => ⟨fun hne => ?misaligned, fun halign hle => ?outOfRange, fun halign hlt e hdecode => ?illegal⟩
  case misaligned => exact step_of_fetch_error (fetch_eq_error.mpr (checkAccess_of_misaligned _ hne))
  case outOfRange => exact step_of_fetch_error (fetch_eq_error.mpr (checkAccess_of_outOfRange _ halign hle))
  case illegal => exact step_of_decode_error (fetch_ok halign hlt) hdecode

/-- Settles O30: the fetch answers the little-endian word at the pc. -/
theorem stepRunsTheDecodedInstruction : Obligations.StepRunsTheDecodedInstruction :=
  fun _ _ halign hlt hdecode => step_of_decode_ok (fetch_ok halign hlt) hdecode

/-- Settles O32: a step faults in its fetch or its decode, or it is `exec` of an instruction, which none refuses. -/
theorem stepIsTotal : Obligations.StepIsTotal := by
  intro s
  obtain ⟨f, -, hstep⟩ | ⟨w, e, -, -, hstep⟩ | ⟨w, i, -, -, hstep⟩ := step_cases s
  case inl => exact .inr ⟨f, hstep⟩
  case inr.inl => exact .inr ⟨_, hstep⟩
  case inr.inr =>
    rw [hstep]
    cases hexec : exec i s with
    | next t => exact .inl ⟨t, rfl⟩
    | fault f => exact .inr ⟨f, rfl⟩
    | refused r => exact absurd hexec (exec_not_refused i s r)

end Sys2Proof.Machine
end

section
/-! PROOF. Jumps (spec 47_jumps.md R230, R231): the words that decode to them, where they go, and the fault of the fetch
after a jump or a branch to a misaligned target (44_branches.md R177). -/

namespace Sys2Proof.Machine

open Sys2Proof

/-! ## The jump rows decode their words (R80) -/

theorem mem_decodeTable_of_mem_jumpRows (enc : LoadUnsignedEncoding) : ∀ r ∈ jumpRows, r ∈ decodeTable enc := by
  obtain ⟨-, hjump, -⟩ := forall_mem_decodeTable_iff.mp fun r (hr : r ∈ decodeTable enc) => hr
  exact hjump

/-- A word that jump row `k`, counted from 0, accepts decodes by that row. -/
theorem decode_jumpRow (enc : LoadUnsignedEncoding) (k : Nat) {w : Word} (hk : k < jumpRows.length := by decide)
    (h : w &&& jumpRows[k].mask = jumpRows[k].pattern) : decode enc w = .ok (jumpRows[k].operands w) :=
  decode_of_accepts (mem_decodeTable_of_mem_jumpRows enc _ (List.getElem_mem hk)) h

/-- Settles O53: each word is accepted by the row of its instruction, and the row's operands of it are the ones the spec
gives; only the last word's row depends on `LOAD_UNSIGNED_ENCODING`. -/
theorem printedWordsDecodeAsTheSpecSays : Obligations.PrintedWordsDecodeAsTheSpecSays := by
  refine ⟨?jal, ?beq, ?sw, ?add, ?srai, ?lhu, ?lbu⟩
  case jal => exact decode_jumpRow .asPrinted 0 (h := by decide)
  case beq => exact decode_branchRow .asPrinted 0 (h := by decide)
  case sw => exact decode_storeRow .rv32i 2 (h := by decide)
  case add => exact decode_registerRow .rv32i 0 (h := by decide)
  case srai => exact decode_immediateRow .asPrinted 6 (h := by decide)
  case lhu => exact decode_loadRow .asPrinted 4 (h := by decide)
  case lbu => exact decode_loadRow .rv32i 3 (h := by decide)

/-! ## Where the jumps go (R230, R231) -/

/-- Settles O20: row 0 of the jump rows accepts the word, and `jal` ends in the shared jump to the sum. -/
theorem jalLinksAndJumps : Obligations.JalLinksAndJumps := by
  refine ⟨fun enc w h => decode_jumpRow enc 0 (h := h), fun rd i s => ?_⟩
  rw [← BitVec.add_def]
  exact jump_writesRegister s rd (s.pc + i)

/-- Settles O21: row 1 of the jump rows accepts the word, and `jalr` ends in the shared jump to the sum, which reads
`x[rs1]` before the link is written. -/
theorem jalrJumpsToTheExactSum : Obligations.JalrJumpsToTheExactSum := by
  refine ⟨fun enc w h => decode_jumpRow enc 1 (h := h), fun rd rs1 i s => ?_⟩
  rw [← BitVec.add_def]
  exact jump_writesRegister s rd (s.readReg rs1 + i)

/-! ## Misaligned targets (R177) -/

/-- The step after one that left the pc at a misaligned target faults in its fetch. -/
theorem step_of_misaligned_target {t : State} {target : Word} (hpc : t.pc = target) (hne : target.toNat % 4 ≠ 0) :
    step t = .fault (.misalignedFetch target) := by
  subst hpc
  obtain ⟨hmisaligned, -⟩ := fetchChecksComeFirst t
  exact hmisaligned hne

/-- A jump to a misaligned target completes and links, and the next step faults. -/
theorem jump_of_misaligned_target (s : State) (rd : Reg) {target : Word} (hne : target.toNat % 4 ≠ 0) :
    ∃ t, s.jump rd target = .next t ∧ (rd ≠ 0 → t.readReg rd = s.pc + 4#32) ∧ t.pc = target ∧
      step t = .fault (.misalignedFetch target) := by
  obtain ⟨t, hnext, hwrites⟩ := jump_writesRegister s rd target
  exact ⟨t, hnext, fun hrd => hwrites.dest.trans (if_neg hrd), hwrites.pc, step_of_misaligned_target hwrites.pc hne⟩

/-- A branch whose comparison decides `P`, with a misaligned target: taken, it completes and the next step faults; not
taken, it goes to the next word. -/
theorem branch_of_misaligned_target {taken : Bool} {P : Prop} (hP : taken = true ↔ P) (s : State) {i : Word}
    (hne : (s.pc + i).toNat % 4 ≠ 0) :
    (P → ∃ t, s.branch taken i = .next t ∧ t.pc = s.pc + i ∧ step t = .fault (.misalignedFetch (s.pc + i))) ∧
    (¬ P → ∃ t, s.branch taken i = .next t ∧ t.pc = s.pc + 4#32) := by
  obtain ⟨t, hnext, hmoves⟩ := branch_onlyMovesPc s taken i
  refine ⟨fun htaken => ?_, fun hnot => ?_⟩
  · have hpc : t.pc = s.pc + i := hmoves.pc.trans (if_pos (hP.mpr htaken))
    exact ⟨t, hnext, hpc, step_of_misaligned_target hpc hne⟩
  · exact ⟨t, hnext, hmoves.pc.trans (if_neg (mt hP.mp hnot))⟩

/-- Settles O45: the jumps end in the shared jump and the six branches in the shared branch, each with the comparison
that decides its condition. -/
theorem misalignedJumpsFaultAtTheNextFetch : Obligations.MisalignedJumpsFaultAtTheNextFetch := by
  intro rd rs1 rs2 i s
  refine ⟨jump_of_misaligned_target s rd, jump_of_misaligned_target s rd, fun hne branch taken hbranch => ?_⟩
  obtain ⟨rfl, rfl⟩ | ⟨rfl, rfl⟩ | ⟨rfl, rfl⟩ | ⟨rfl, rfl⟩ | ⟨rfl, rfl⟩ | ⟨rfl, rfl⟩ := hbranch
  · exact branch_of_misaligned_target beq_iff_eq s hne
  · exact branch_of_misaligned_target bne_iff_ne s hne
  · exact branch_of_misaligned_target (lessSigned_iff _ _) s hne
  · exact branch_of_misaligned_target (not_lessSigned_iff _ _) s hne
  · exact branch_of_misaligned_target (lessUnsigned_iff _ _) s hne
  · exact branch_of_misaligned_target (not_lessUnsigned_iff _ _) s hne

end Sys2Proof.Machine
end

section
/-! PROOF. `fence`, `unimp` and the system calls (spec 48_system.md R240 to R243, R246): the words that decode to them,
what an answer of the environment changes, and that answers cover every result the spec allows. -/

namespace Sys2Proof.Machine

open Sys2Proof

/-! ## The system rows decode their words (R80) -/

theorem mem_decodeTable_of_mem_systemRows (enc : LoadUnsignedEncoding) : ∀ r ∈ systemRows, r ∈ decodeTable enc := by
  obtain ⟨-, -, -, -, -, -, -, hsystem⟩ := forall_mem_decodeTable_iff.mp fun r (hr : r ∈ decodeTable enc) => hr
  exact hsystem

/-- A word that system row `k`, counted from 0, accepts decodes by that row. -/
theorem decode_systemRow (enc : LoadUnsignedEncoding) (k : Nat) {w : Word} (hk : k < systemRows.length := by decide)
    (h : w &&& systemRows[k].mask = systemRows[k].pattern) : decode enc w = .ok (systemRows[k].operands w) :=
  decode_of_accepts (mem_decodeTable_of_mem_systemRows enc _ (List.getElem_mem hk)) h

/-! ## `fence` and `unimp` (R240, R243) -/

/-- Settles O22: row 0 of the system rows accepts the word, and `fence` only advances. -/
theorem fenceOnlyAdvances : Obligations.FenceOnlyAdvances :=
  ⟨fun enc _ h => decode_systemRow enc 0 (h := h), fun s => ⟨_, rfl, setPc_onlyMovesPc s _⟩⟩

/-- Settles O23: row 3 of the system rows accepts the word, and `unimp` sets the pc to what it is. -/
theorem unimpChangesNothing : Obligations.UnimpChangesNothing :=
  ⟨fun enc _ h => decode_systemRow enc 3 (h := h), fun _ => rfl⟩

/-! ## How a system call ends (R241, R242) -/

/-- Both system calls are the shared operation, each with its function of the environment. -/
theorem exec_eq_sysCall {call : Reg → Instr} (hcall : call = .ecall ∨ call = .ebreak) :
    ∃ c : SystemCall, ∀ rd s, exec (call rd) s = s.sysCall c rd := by
  obtain rfl | rfl := hcall
  · exact ⟨.ecall, fun _ _ => rfl⟩
  · exact ⟨.ebreak, fun _ _ => rfl⟩

/-- A system call whose answer refuses faults. -/
theorem sysCall_of_refuse {s u : State} {call : SystemCall} {rd : Reg} {reason : RefuseReason}
    (htake : s.takeAnswer call rd = (.refuse reason, u)) :
    s.sysCall call rd = .fault (.environmentFault s.pc reason) :=
  sysCall_eq_fault.mpr ⟨reason, congrArg Prod.fst htake, rfl⟩

/-- A system call whose answer does not refuse advances from the state that answer leaves. -/
theorem sysCall_of_applyAnswer_ok {s u t : State} {call : SystemCall} {rd : Reg} {a : EnvAnswer}
    (htake : s.takeAnswer call rd = (a, u)) (hok : u.applyAnswer rd a = .ok t) :
    s.sysCall call rd = .next t.advance := by
  simp only [State.sysCall, htake, hok]

/-- Settles O27: the answer taken is the next fixed one, else the refusal of the default environment. -/
theorem refusedSystemCallFaults : Obligations.RefusedSystemCallFaults := by
  intro call hcall rd s
  obtain ⟨c, hexec⟩ := exec_eq_sysCall hcall
  rw [hexec]
  exact ⟨fun _ _ hanswers => sysCall_of_refuse (takeAnswer_cons hanswers c rd),
    fun hanswers hrule => sysCall_of_refuse (takeAnswer_refuse hanswers hrule c rd)⟩

/-- Settles O24: rows 1 and 2 of the system rows accept the words; the answer writes `rd` and drops from the tape, and
the call advances. -/
theorem systemCallTakesARegisterOnlyAnswer : Obligations.SystemCallTakesARegisterOnlyAnswer := by
  refine ⟨fun enc _ h => decode_systemRow enc 1 (h := h), fun enc _ h => decode_systemRow enc 2 (h := h),
    fun call hcall rd s value consumed later hanswers => ?_⟩
  obtain ⟨c, hexec⟩ := exec_eq_sysCall hcall
  have hwrites := writeReg_writesRegister { s with answers := later } rd value s.pc
  refine ⟨_, (hexec rd s).trans (sysCall_of_applyAnswer_ok (takeAnswer_cons hanswers c rd) rfl), ?_⟩
  exact ⟨hwrites.dest, hwrites.others, congrArg (· + 4#32) (writeReg_pc _ rd value), hwrites.memory, rfl,
    hwrites.params, hwrites.answers, hwrites.draws⟩

/-! ## What a havoc answer writes (R246) -/

/-- A register that no write of the list names keeps its value. -/
theorem readReg_writeRegs_of_notMem {l : List (Reg × Word)} {r : Reg} (h : r ∉ l.map Prod.fst) :
    ∀ s : State, (s.writeRegs l).readReg r = s.readReg r := by
  induction l with
  | nil => exact fun _ => rfl
  | cons p l ih =>
    intro s
    rw [List.map_cons, List.mem_cons, not_or] at h
    rw [State.writeRegs, ih h.2, readReg_writeReg_of_ne s _ h.1]

/-- A register other than `x0` that the list names once holds the value it is named with. -/
theorem readReg_writeRegs_of_mem {l : List (Reg × Word)} (hl : (l.map Prod.fst).Nodup) {p : Reg × Word} (hp : p ∈ l)
    (hne : p.1 ≠ 0) : ∀ s : State, (s.writeRegs l).readReg p.1 = p.2 := by
  induction l with
  | nil => cases hp
  | cons q l ih =>
    intro s
    rw [List.map_cons, List.nodup_cons] at hl
    obtain ⟨hlater, hl⟩ := hl
    rw [State.writeRegs]
    obtain rfl | hp := List.mem_cons.mp hp
    · rw [readReg_writeRegs_of_notMem hlater, readReg_writeReg_self, if_neg hne]
    · exact ih hl hp _

/-- A byte that no write of the list names, or that does not exist, is kept. -/
theorem readByte_writeCells_of_notMem_or_le {size : Nat} {l : List (Nat × Byte)} {a : Nat}
    (h : a ∉ l.map Prod.fst ∨ size ≤ a) :
    ∀ {m : Memory}, m.wf → readByte (writeCells size m l) a = readByte m a := by
  induction l with
  | nil => exact fun _ => rfl
  | cons c l ih =>
    intro m hm
    have hlater : a ∉ l.map Prod.fst ∨ size ≤ a := h.imp_left fun hnot hmem => hnot (List.mem_cons_of_mem _ hmem)
    rw [writeCells]
    split
    case isTrue hlt =>
      have hne : a ≠ c.1 := by
        rintro rfl
        exact h.elim (fun hnot => hnot List.mem_cons_self) hlt.not_ge
      rw [ih hlater (writeByte_wf hm _ _), readByte_writeByte m hm, if_neg hne]
    case isFalse => exact ih hlater hm

/-- A byte that exists and that the list names once holds the value it is named with. -/
theorem readByte_writeCells_of_mem {size : Nat} {l : List (Nat × Byte)} (hl : (l.map Prod.fst).Nodup) {c : Nat × Byte}
    (hc : c ∈ l) (hlt : c.1 < size) : ∀ {m : Memory}, m.wf → readByte (writeCells size m l) c.1 = c.2 := by
  induction l with
  | nil => cases hc
  | cons d l ih =>
    intro m hm
    rw [List.map_cons, List.nodup_cons] at hl
    obtain ⟨hlater, hl⟩ := hl
    rw [writeCells]
    obtain rfl | hc := List.mem_cons.mp hc
    · rw [if_pos hlt, readByte_writeCells_of_notMem_or_le (.inl hlater) (writeByte_wf hm _ _),
        readByte_writeByte_self hm]
    · split
      · exact ih hl hc (writeByte_wf hm _ _)
      · exact ih hl hc hm

/-- Settles O25: the registers after a list of writes and the bytes after a list of writes, each named at most once. -/
theorem systemCallTakesAHavocAnswer : Obligations.SystemCallTakesAHavocAnswer := by
  intro call hcall rd s regs mem input later hs hanswers hregs hmem
  obtain ⟨-, hm, -⟩ := hs
  obtain ⟨c, hexec⟩ := exec_eq_sysCall hcall
  refine ⟨_, (hexec rd s).trans (sysCall_of_applyAnswer_ok (takeAnswer_cons hanswers c rd) rfl), ?_⟩
  refine ⟨fun p hp hne => readReg_writeRegs_of_mem hregs hp hne _, readReg_zero _,
    fun r hr => readReg_writeRegs_of_notMem hr _, fun b hb hlt => readByte_writeCells_of_mem hmem hb hlt hm,
    fun a ha => readByte_writeCells_of_notMem_or_le ha hm, rfl, congrArg (· + 4#32) (writeRegs_pc regs _),
    writeRegs_params regs _, writeRegs_answers regs _, writeRegs_draws regs _⟩

/-! ## Every result the spec allows is an answer (R246) -/

/-- An address that no entry lists reads zero. -/
theorem readByte_of_notMem {m : Memory} {a : Nat} (h : a ∉ m.map Prod.fst) : readByte m a = Memory.unlisted := by
  induction m with
  | nil => rfl
  | cons c m ih =>
    rw [List.map_cons, List.mem_cons, not_or] at h
    rw [readByte, if_neg (Ne.symm h.1), ih h.2]

/-- The writes that make memory `old` read as `new`: the byte of `new` at each address that either of them lists. -/
def cellsFromTo (old new : Memory) : List (Nat × Byte) :=
  ((old ++ new).map Prod.fst).dedup.map fun a => (a, readByte new a)

theorem map_fst_cellsFromTo (old new : Memory) :
    (cellsFromTo old new).map Prod.fst = ((old ++ new).map Prod.fst).dedup := by
  simp [cellsFromTo, Function.comp_def]

/-- The writes that make the registers `regs`. -/
def regWrites (regs : Reg → Word) : List (Reg × Word) := (List.finRange 32).map fun r => (r, regs r)

theorem map_fst_regWrites (regs : Reg → Word) : (regWrites regs).map Prod.fst = List.finRange 32 := by
  simp [regWrites, Function.comp_def]

/-- The answer to a call in `s` that makes the registers `regs`, the memory `mem` and the tape `input`. -/
def answerTo (s : State) (regs : Reg → Word) (mem : Memory) (input : List Byte) : EnvAnswer :=
  .havoc (regWrites regs) (cellsFromTo s.mem mem) input

/-- Settles O26: the answer writes every register and every byte that either memory lists; by O25 the state it leaves
reads as the given registers and memory, and canonical memories that read alike are equal. -/
theorem everyEnvironmentResultIsAnAnswer : Obligations.EveryEnvironmentResultIsAnAnswer := by
  intro s regs mem input hs hzero hmem hwithin
  refine ⟨answerTo s regs mem input, fun rd later call hcall => ?_⟩
  have hregsNodup : ((regWrites regs).map Prod.fst).Nodup := map_fst_regWrites regs ▸ List.nodup_finRange 32
  have hcellsNodup : ((cellsFromTo s.mem mem).map Prod.fst).Nodup := map_fst_cellsFromTo s.mem mem ▸ List.nodup_dedup _
  obtain ⟨t, hnext, hreg, hreg0, -, hbyte, hkept, hinput, hpc, hparams, hanswers, hdraws⟩ :=
    systemCallTakesAHavocAnswer call hcall rd { s with answers := answerTo s regs mem input :: later } _ _ input
      later hs rfl hregsNodup hcellsNodup
  refine ⟨t, hnext, hpc, fun r => ?registers, ?memory, hinput, hparams, hanswers, hdraws⟩
  case registers =>
    by_cases hr : r = 0
    · rw [hr, hreg0, hzero]
    · exact hreg (r, regs r) (List.mem_map_of_mem (List.mem_finRange r)) hr
  case memory =>
    obtain ⟨-, htwf, -⟩ := exec_inv (s := { s with answers := answerTo s regs mem input :: later }) hs hnext
    obtain ⟨-, -, hswithin⟩ := hs
    refine Memory.ext_of_reads htwf hmem fun a => ?_
    by_cases ha : a ∈ (s.mem ++ mem).map Prod.fst
    · have hlt : a < s.params.memSize := by
        obtain ⟨c, hc, rfl⟩ := List.mem_map.mp ha
        exact (List.mem_append.mp hc).elim (hswithin c) (hwithin c)
      exact hbyte (a, readByte mem a) (List.mem_map_of_mem (List.mem_dedup.mpr ha)) hlt
    · have hnamed : a ∉ (cellsFromTo s.mem mem).map Prod.fst := by
        rwa [map_fst_cellsFromTo, List.mem_dedup]
      rw [List.map_append, List.mem_append, not_or] at ha
      exact (hkept a (.inl hnamed)).trans ((readByte_of_notMem ha.1).trans (readByte_of_notMem ha.2).symm)

/-! ## The free environment (R246) -/

/-- A register write commutes with a change of the count of draws. -/
theorem writeReg_setDraws (s : State) (n : Nat) (r : Reg) (v : Word) :
    { s with draws := n }.writeReg r v = { s.writeReg r v with draws := n } := by
  unfold State.writeReg
  split <;> rfl

theorem writeRegs_setDraws (l : List (Reg × Word)) (n : Nat) :
    ∀ s : State, { s with draws := n }.writeRegs l = { s.writeRegs l with draws := n } := by
  induction l with
  | nil => exact fun _ => rfl
  | cons p l ih =>
    intro s
    rw [State.writeRegs, writeReg_setDraws, ih, State.writeRegs]

/-- What an answer does does not depend on the count of draws. -/
theorem applyAnswer_setDraws (s : State) (n : Nat) (rd : Reg) (a : EnvAnswer) :
    { s with draws := n }.applyAnswer rd a = (s.applyAnswer rd a).map ({ · with draws := n }) := by
  cases a with
  | refuse reason => rfl
  | registerOnly value consumed =>
    simp only [State.applyAnswer, writeReg_setDraws]
    rfl
  | havoc regs mem input =>
    simp only [State.applyAnswer, writeRegs_setDraws]
    rfl

/-- A call the free environment answers is the call with that one answer fixed in advance, and one draw more. -/
theorem sysCall_of_free {s : State} (hanswers : s.answers = []) (hrule : s.params.env = .free) (call : SystemCall)
    (rd : Reg) :
    s.sysCall call rd = withDraws (s.draws + 1)
      ({ s with answers := [freeEnv s.draws call s.pc s.regs s.mem s.input rd] }.sysCall call rd) := by
  have hfixed := takeAnswer_cons (s := { s with answers := [freeEnv s.draws call s.pc s.regs s.mem s.input rd] }) rfl
    call rd
  have hstate : { s with answers := ([] : List EnvAnswer) } = s := by rw [← hanswers]
  simp only [State.sysCall, takeAnswer_free hanswers hrule, hfixed, hstate, applyAnswer_setDraws]
  cases s.applyAnswer rd (freeEnv s.draws call s.pc s.regs s.mem s.input rd) <;> rfl

/-- A state with no fixed answer left under the free rule keeps none: no instruction adds one. -/
theorem exec_next_answers_of_free {i : Instr} {s t : State} (hanswers : s.answers = []) (hrule : s.params.env = .free)
    (h : exec i s = .next t) : t.answers = [] := by
  obtain ⟨rd, v, next, -, -, -, -, rfl⟩ | ⟨next, -, -, -, -, rfl⟩ | ⟨a, l, -, -, -, -, -, -, -, rfl⟩ |
    ⟨rd, call, u, -, -, -, -, hu, rfl⟩ := exec_next_cases h
  case inl => rw [setPc_answers, writeReg_answers, hanswers]
  case inr.inl => exact hanswers
  case inr.inr.inl => exact hanswers
  case inr.inr.inr =>
    rw [takeAnswer_free hanswers hrule] at hu
    obtain ⟨-, -, -, -, huanswers, -⟩ := applyAnswer_ok hu
    exact huanswers.trans hanswers

/-- Settles O57: both calls are the shared operation under the free rule; no instruction adds a fixed answer, and O35
keeps the rule. -/
theorem freeEnvironmentAnswersEveryCall : Obligations.FreeEnvironmentAnswersEveryCall := by
  intro rd s hanswers hrule
  refine ⟨sysCall_of_free hanswers hrule .ecall rd, sysCall_of_free hanswers hrule .ebreak rd, fun i t h => ?_⟩
  obtain ⟨hparams, -⟩ := onlySystemCallsTouchTheTape i s t h
  exact ⟨exec_next_answers_of_free hanswers hrule h, by rw [hparams, hrule]⟩

end Sys2Proof.Machine
end

section
/-! PROOF. Which instructions fault, where, and with which fault (spec 60_exceptions.md R261, R263). -/

namespace Sys2Proof.Machine

open Sys2Proof

/-! ## A load or a store faults exactly where the check of its access does (R44, R52) -/

theorem map_eq_error_iff {ε α β : Type} {g : α → β} {e : Except ε α} {f : ε} : e.map g = .error f ↔ e = .error f := by
  cases e <;> simp [Except.map]

section
variable {rd rs1 rs2 : Reg} {k : Word} {s : State} {f : Fault}

theorem exec_lb_eq_fault :
    exec (.lb rd rs1 k) s = .fault f ↔ s.checkAccess .misalignedLoad 1 (s.readReg rs1 + k) = some f :=
  finishLoad_eq_fault.trans (map_eq_error_iff.trans loadByte_eq_error)

theorem exec_lbu_eq_fault :
    exec (.lbu rd rs1 k) s = .fault f ↔ s.checkAccess .misalignedLoad 1 (s.readReg rs1 + k) = some f :=
  finishLoad_eq_fault.trans (map_eq_error_iff.trans loadByte_eq_error)

theorem exec_lh_eq_fault :
    exec (.lh rd rs1 k) s = .fault f ↔ s.checkAccess .misalignedLoad 2 (s.readReg rs1 + k) = some f :=
  finishLoad_eq_fault.trans (map_eq_error_iff.trans loadHalf_eq_error)

theorem exec_lhu_eq_fault :
    exec (.lhu rd rs1 k) s = .fault f ↔ s.checkAccess .misalignedLoad 2 (s.readReg rs1 + k) = some f :=
  finishLoad_eq_fault.trans (map_eq_error_iff.trans loadHalf_eq_error)

theorem exec_lw_eq_fault :
    exec (.lw rd rs1 k) s = .fault f ↔ s.checkAccess .misalignedLoad 4 (s.readReg rs1 + k) = some f :=
  finishLoad_eq_fault.trans loadWord_eq_error

theorem exec_sb_eq_fault :
    exec (.sb rs1 rs2 k) s = .fault f ↔ s.checkAccess .misalignedStore 1 (s.readReg rs1 + k) = some f :=
  finishStore_eq_fault.trans storeByte_eq_error

theorem exec_sh_eq_fault :
    exec (.sh rs1 rs2 k) s = .fault f ↔ s.checkAccess .misalignedStore 2 (s.readReg rs1 + k) = some f :=
  finishStore_eq_fault.trans storeHalf_eq_error

theorem exec_sw_eq_fault :
    exec (.sw rs1 rs2 k) s = .fault f ↔ s.checkAccess .misalignedStore 4 (s.readReg rs1 + k) = some f :=
  finishStore_eq_fault.trans storeWord_eq_error

end

/-! ## A system call faults exactly where its answer refuses (R241, R242) -/

/-- The answer a call takes refuses: the next fixed answer does, or none is left and the default environment refuses or
the free one does. -/
theorem takeAnswer_eq_refuse_iff {s : State} {call : SystemCall} {rd : Reg} {reason : RefuseReason} :
    (s.takeAnswer call rd).1 = .refuse reason ↔
      (∃ later, s.answers = .refuse reason :: later) ∨
      (s.answers = [] ∧ s.params.env = .refuse ∧ reason = .refused) ∨
      (s.answers = [] ∧ s.params.env = .free ∧
        freeEnv s.draws call s.pc s.regs s.mem s.input rd = .refuse reason) := by
  cases hanswers : s.answers with
  | cons a later => simp [takeAnswer_cons hanswers]
  | nil =>
    cases hrule : s.params.env with
    | refuse => simp [takeAnswer_refuse hanswers hrule, eq_comm (a := reason)]
    | free => simp [takeAnswer_free hanswers hrule]

/-! ## Every instruction (R261) -/

/-- An instruction that is no load, no store and no system call completes in every state. -/
theorem exec_ne_fault {i : Instr} (hload : i.isLoad = false) (hstore : i.isStore = false)
    (hsys : i.isSystemCall = false) (s : State) (f : Fault) : exec i s ≠ .fault f := by
  cases i with
  | lb | lh | lw | lbu | lhu => cases hload
  | sb | sh | sw => cases hstore
  | ecall | ebreak => cases hsys
  | _ => exact nofun

/-- Settles O31: a load or a store faults by the check of its access and a system call by the answer it takes, each as
its lines of the table say; no other instruction faults, and the table lists none. -/
theorem onlyListedInstructionsFault : Obligations.OnlyListedInstructionsFault := by
  intro i s f
  by_cases hother : i.isLoad = false ∧ i.isStore = false ∧ i.isSystemCall = false
  case pos =>
    obtain ⟨hload, hstore, hsys⟩ := hother
    refine iff_of_false (exec_ne_fault hload hstore hsys s f) ?_
    rintro (⟨_, _, _, rfl | rfl, -⟩ | ⟨_, _, _, rfl, -⟩ | ⟨_, _, _, rfl, -⟩ | ⟨_, _, _, rfl, -⟩ |
      ⟨_, _, _, _, _, ⟨-, rfl | rfl | rfl⟩ | ⟨-, rfl | rfl | rfl⟩ | ⟨-, rfl | rfl⟩, -⟩ |
      ⟨_, _, _, ⟨rfl, -⟩ | ⟨rfl, -⟩, -⟩)
    all_goals simp [Instr.isLoad, Instr.isStore, Instr.isSystemCall] at hload hstore hsys
  case neg =>
    cases i with
    | lb rd rs1 k =>
      rw [exec_lb_eq_fault, checkAccess_eq_some]
      simp [Nat.mod_one]
    | lbu rd rs1 k =>
      rw [exec_lbu_eq_fault, checkAccess_eq_some]
      simp [Nat.mod_one]
    | sb rs1 rs2 k =>
      rw [exec_sb_eq_fault, checkAccess_eq_some]
      simp [Nat.mod_one]
    | lh rd rs1 k =>
      rw [exec_lh_eq_fault, checkAccess_eq_some]
      simp
    | lhu rd rs1 k =>
      rw [exec_lhu_eq_fault, checkAccess_eq_some]
      simp
    | sh rs1 rs2 k =>
      rw [exec_sh_eq_fault, checkAccess_eq_some]
      simp
    | lw rd rs1 k =>
      rw [exec_lw_eq_fault, checkAccess_eq_some]
      simp
    | sw rs1 rs2 k =>
      rw [exec_sw_eq_fault, checkAccess_eq_some]
      simp
    | ecall rd | ebreak rd =>
      refine sysCall_eq_fault.trans ?_
      simp [takeAnswer_eq_refuse_iff]
    | _ => exact absurd ⟨rfl, rfl, rfl⟩ hother

end Sys2Proof.Machine
end

section
/-! PROOF. The launch, the halted state and the outcomes of a run (spec 70_reset_and_hazards.md R290, R296). -/

namespace Sys2Proof.Machine

open Sys2Proof

/-! ## The launch (R290) -/

/-- An image that fits lists only addresses that exist. -/
theorem imageMemory_within {image : List Byte} {size : Nat} (h : image.length ≤ size) :
    (imageMemory 0 image).within size := by
  intro c hc
  obtain ⟨-, hlt, -⟩ := mem_imageMemory image 0 c hc
  omega

/-- Settles O39: the parameters of a launched state are within R8's bounds, and the image in its memory is canonical and
within `MEM_SIZE`; by O58 the reset state is a launched state. -/
theorem launchMeetsTheInvariant : Obligations.LaunchMeetsTheInvariant := by
  have hlaunch : ∀ params answers image input s, launch params answers image input = .next s → s.Inv := by
    intro params answers image input s h
    obtain ⟨hwf, hfit, rfl⟩ := launch_eq_next_iff.mp h
    exact ⟨hwf, imageMemory_wf image 0, imageMemory_within hfit⟩
  obtain ⟨-, answers, hreset⟩ := resetIsTheLaunchOfNothing
  exact ⟨hlaunch _ answers _ _ _ hreset, hlaunch⟩

/-- Settles O41: `launch` tests `MEM_SIZE` first and then the length of the image. -/
theorem launchRefusesWhatDoesNotFit : Obligations.LaunchRefusesWhatDoesNotFit := by
  refine fun params answers image input => ⟨fun hwf => ?memSize, fun hwf hlong => ?image⟩
  case memSize => rw [launch, if_pos hwf]
  case image => rw [launch, if_neg (not_not_intro hwf), if_pos hlong]

/-! ## The words of `unimp` (R243) -/

/-- `unimp` is read by the last row of the table and by no other. -/
theorem eq_unimpRow_of_operands_eq_unimp (enc : LoadUnsignedEncoding) {w : Word} :
    ∀ r ∈ decodeTable enc, r.operands w = .unimp → r.mask = 0xFFFFF07F#32 ∧ r.pattern = 0xC0001073#32 := by
  rw [forall_mem_decodeTable_iff]
  simp [upperRows, jumpRows, branchRows, loadRows, storeRows, immediateRows, registerRows, systemRows]

theorem decode_eq_unimp_iff (enc : LoadUnsignedEncoding) (w : Word) :
    decode enc w = .ok .unimp ↔ w &&& 0xFFFFF07F#32 = 0xC0001073#32 := by
  constructor
  · intro hdecode
    obtain ⟨r, hr, hmatch, hok⟩ | ⟨-, herror⟩ := decode_cases enc w
    · have hreads : r.operands w = .unimp := Except.ok.inj (hok.symm.trans hdecode)
      obtain ⟨hmask, hpattern⟩ := eq_unimpRow_of_operands_eq_unimp enc r hr hreads
      rwa [hmask, hpattern] at hmatch
    · simp [herror] at hdecode
  · obtain ⟨hdecode, -⟩ := unimpChangesNothing
    exact hdecode enc w

/-! ## The halted state (R296) -/

theorem fetch_eq_ok_iff {s : State} {w : Word} :
    s.fetch = .ok w ↔ s.pc.toNat % 4 = 0 ∧ s.pc.toNat < s.params.memSize ∧ readWord s.mem s.pc.toNat = w := by
  obtain ⟨hne, hfetch⟩ | ⟨-, hle, hfetch⟩ | ⟨halign, hlt, hfetch⟩ := fetch_cases s
  · simp [hfetch, hne]
  · simp [hfetch, hle.not_gt]
  · simp [hfetch, halign, hlt]

theorem step_of_halted {s : State} (h : s.halted = true) : step s = .next s := by
  obtain ⟨w, hfetch, hdecode⟩ := (halted_iff s).mp h
  obtain ⟨-, hexec⟩ := unimpChangesNothing
  exact (step_of_decode_ok hfetch hdecode).trans (hexec s)

/-- A run of any length from a state that steps to itself stays there. -/
theorem run_of_halted {s : State} (h : s.halted = true) (n : Nat) : Host.Core.run Sys2Proof.core n s = .next s := by
  induction n with
  | zero => rfl
  | succ n ih => rw [run_succ_next n (step_of_halted h), ih]

/-- Settles O43: the fetch answers the word at the pc, whose decode is `unimp` exactly where its bits match; and a
halted state steps to itself. -/
theorem haltedStatesRepeatForever : Obligations.HaltedStatesRepeatForever := by
  refine fun s => ⟨?_, run_of_halted⟩
  rw [halted_iff]
  simp only [fetch_eq_ok_iff, decode_eq_unimp_iff]
  constructor
  · rintro ⟨_, ⟨halign, hlt, rfl⟩, hmatch⟩
    exact ⟨halign, hlt, hmatch⟩
  · rintro ⟨halign, hlt, hmatch⟩
    exact ⟨_, ⟨halign, hlt, rfl⟩, hmatch⟩

/-! ## The outcomes of a run (R296) -/

/-- A run of `n` steps that reaches `t` goes on from `t`. -/
theorem run_add_of_next {n : Nat} (m : Nat) {s t : State} (h : Host.Core.run Sys2Proof.core n s = .next t) :
    Host.Core.run Sys2Proof.core (n + m) s = Host.Core.run Sys2Proof.core m t := by
  induction n generalizing s with
  | zero =>
    obtain rfl : s = t := Host.Outcome.next.inj h
    rw [Nat.zero_add]
  | succ n ih =>
    rw [Nat.add_right_comm]
    obtain ⟨u, hstep⟩ | ⟨f, hstep⟩ := stepIsTotal s
    · rw [run_succ_next _ hstep] at h ⊢
      exact ih h
    · rw [run_succ_fault _ hstep] at h
      cases h

/-- A run that faults within `n` steps ends there, however many steps are allowed. -/
theorem run_add_of_fault {n : Nat} (m : Nat) {s : State} {f : Fault}
    (h : Host.Core.run Sys2Proof.core n s = .fault f) : Host.Core.run Sys2Proof.core (n + m) s = .fault f := by
  induction n generalizing s with
  | zero => cases h
  | succ n ih =>
    rw [Nat.add_right_comm]
    obtain ⟨u, hstep⟩ | ⟨g, hstep⟩ := stepIsTotal s
    · rw [run_succ_next _ hstep] at h ⊢
      exact ih h
    · rw [run_succ_fault _ hstep] at h ⊢
      exact h

/-- A completed run is still in its halted state after any further number of steps. -/
theorem run_add_of_halted {n : Nat} (m : Nat) {s t : State} (h : Host.Core.run Sys2Proof.core n s = .next t)
    (hhalted : t.halted = true) : Host.Core.run Sys2Proof.core (n + m) s = .next t :=
  (run_add_of_next m h).trans (run_of_halted hhalted m)

/-- Settles O44: of two outcomes, reached in `n` and in `m` steps, both are the outcome of the run of `n + m` steps. -/
theorem aRunHasOneOutcome : Obligations.ARunHasOneOutcome := by
  refine fun s => ⟨?twoStates, ?stateAndFault, ?twoFaults⟩
  case twoStates =>
    rintro t u ⟨n, ht, hthalted⟩ ⟨m, hu, huhalted⟩
    have hrun := run_add_of_halted m ht hthalted
    rw [Nat.add_comm, run_add_of_halted n hu huhalted] at hrun
    exact (Host.Outcome.next.inj hrun).symm
  case stateAndFault =>
    rintro t f ⟨n, ht, hthalted⟩ ⟨m, hf⟩
    have hrun := run_add_of_halted m ht hthalted
    rw [Nat.add_comm, run_add_of_fault n hf] at hrun
    cases hrun
  case twoFaults =>
    rintro f g ⟨n, hf⟩ ⟨m, hg⟩
    have hrun := run_add_of_fault m hf
    rw [Nat.add_comm, run_add_of_fault n hg] at hrun
    exact (Host.Outcome.fault.inj hrun).symm

end Sys2Proof.Machine
end
